-- ==== Sys2Proof/Word.lean ====
section
/-! DEFINITION. The machine word, the byte and the register index (00_scope.md R6, R9). -/

namespace Sys2Proof

/-- A register value, memory word, address or instruction word: 16 bits (R9). `+` wraps modulo 65536. -/
abbrev Word := BitVec 16

/-- Half a word: an input character code, or one byte of an image (R46, R172). -/
abbrev Byte := BitVec 8

/-- A 3-bit register field: it names one of R0 to R7 (R20, R64). -/
abbrev Reg := BitVec 3

end Sys2Proof
end

