-- ==== Sys2Proof/Syntax.lean ====
section
/-! DEFINITION. The instructions: one constructor per row of spec/opcode_table.json (30_encoding.md R63, R68, R74). -/

namespace Sys2Proof

/-- One instruction. Immediates and offsets are the raw fields; extending them is part of the meaning (R65). Bits the
decoder ignores (R70) are no part of an instruction. -/
inductive Instr where
  /-- ADD, register mode (R91). -/
  | addReg (dr sr1 sr2 : Reg)
  /-- ADD, immediate mode (R92). -/
  | addImm (dr sr1 : Reg) (imm5 : BitVec 5)
  /-- AND, register mode (R93). -/
  | andReg (dr sr1 sr2 : Reg)
  /-- AND, immediate mode (R94). -/
  | andImm (dr sr1 : Reg) (imm5 : BitVec 5)
  /-- NOT (R95). -/
  | not (dr sr : Reg)
  /-- BR (R100): `nzp` is the condition field, bits 11 (n), 10 (z), 9 (p). -/
  | br (nzp : BitVec 3) (off9 : BitVec 9)
  /-- JMP through a register other than R7 (R101). -/
  | jmp (baseR : Reg)
  /-- RET, the word of JMP with BaseR = 7 (R102). -/
  | ret
  /-- JSR (R103). -/
  | jsr (off11 : BitVec 11)
  /-- JSRR (R104). -/
  | jsrr (baseR : Reg)
  /-- LD (R110). -/
  | ld (dr : Reg) (off9 : BitVec 9)
  /-- LDI (R111). -/
  | ldi (dr : Reg) (off9 : BitVec 9)
  /-- LDR (R112). -/
  | ldr (dr baseR : Reg) (off6 : BitVec 6)
  /-- LEA (R113). -/
  | lea (dr : Reg) (off9 : BitVec 9)
  /-- ST (R114). -/
  | st (sr : Reg) (off9 : BitVec 9)
  /-- STI (R115). -/
  | sti (sr : Reg) (off9 : BitVec 9)
  /-- STR (R116). -/
  | str (sr baseR : Reg) (off6 : BitVec 6)
  /-- TRAP with a vector that names no service (R130, R139). -/
  | trap (vect8 : Byte)
  /-- TRAP x20 (R132). -/
  | getc
  /-- TRAP x21, also called PUTC (R133). -/
  | out
  /-- TRAP x22 (R134). -/
  | puts
  /-- TRAP x23, IN (R135). -/
  | in_
  /-- TRAP x24 (R136). -/
  | putsp
  /-- TRAP x25 (R137). -/
  | halt
  /-- Opcode 1000, illegal (R150). -/
  | illegal1000
  /-- Opcode 1101, illegal (R151). -/
  | illegal1101
  deriving DecidableEq, Repr

end Sys2Proof
end

