-- ==== Sys2Proof/WellFormed.lean ====
section
/-! DEFINITION. Which terms of `Instr` are the spelling of a word. Two rows of the opcode table are special cases of
another row (RET of JMP, the six services of TRAP: 30_encoding.md R74); the general row's constructor is ill-formed on
the operands that the special rows spell. Field ranges need no check: the field types have the field's width. -/

namespace Sys2Proof

/-- Does the vector name one of the six services x20 to x25 (43_trap.md R130, R131)? -/
def isServiceVector (v : Byte) : Bool := 0x20 ≤ v && v ≤ 0x25

/-- The two checks: JMP R7 is spelled `ret`, and a TRAP with a service's vector is spelled by the service. -/
def Instr.wf : Instr → Bool
  | .jmp baseR => baseR != 7#3
  | .trap vect8 => !isServiceVector vect8
  | .addReg _ _ _ => true
  | .addImm _ _ _ => true
  | .andReg _ _ _ => true
  | .andImm _ _ _ => true
  | .not _ _ => true
  | .br _ _ => true
  | .ret => true
  | .jsr _ => true
  | .jsrr _ => true
  | .ld _ _ => true
  | .ldi _ _ => true
  | .ldr _ _ _ => true
  | .lea _ _ => true
  | .st _ _ => true
  | .sti _ _ => true
  | .str _ _ _ => true
  | .getc => true
  | .out => true
  | .puts => true
  | .in_ => true
  | .putsp => true
  | .halt => true
  | .illegal1000 => true
  | .illegal1101 => true

end Sys2Proof
end

