-- ==== Sys2Proof/Decode.lean ====
section
/-! DEFINITION. The decoder (30_encoding.md R61 to R72), a pure total function of the 16-bit word (R62), and after it the
encoder, written from the same format table (R63). -/

namespace Sys2Proof

/-- The 16 opcode values, a closed enumeration (R68, R81). -/
inductive Opcode where
  | br | add | ld | st | jsr | and | ldr | str | rti | not | ldi | sti | jmp | reserved | lea | trap
  deriving DecidableEq, Repr

/-- The opcode map (R68), its bits written as the table writes them, bit 15 of the instruction first. The numbers other
than 1111 are the spec's decision D6. -/
def Opcode.ofBits (b : BitVec 4) : Opcode :=
  match b.getLsbD 3, b.getLsbD 2, b.getLsbD 1, b.getLsbD 0 with
  | false, false, false, false => .br
  | false, false, false, true => .add
  | false, false, true, false => .ld
  | false, false, true, true => .st
  | false, true, false, false => .jsr
  | false, true, false, true => .and
  | false, true, true, false => .ldr
  | false, true, true, true => .str
  | true, false, false, false => .rti
  | true, false, false, true => .not
  | true, false, true, false => .ldi
  | true, false, true, true => .sti
  | true, true, false, false => .jmp
  | true, true, false, true => .reserved
  | true, true, true, false => .lea
  | true, true, true, true => .trap

/-- `v[lo+len-1 : lo]` of R8: the field of `len` bits whose lowest bit is bit `lo`. -/
abbrev field (w : Word) (lo len : Nat) : BitVec len := w.extractLsb' lo len

/-- `op = ir[15:12]` (R61, R64). -/
def opcodeField (w : Word) : BitVec 4 := field w 12 4

/-- `DR`, `SR` of a store, and `condField` of BR: `ir[11:9]` (R64). -/
def drField (w : Word) : Reg := field w 9 3

/-- `SR1`, `SR` of NOT, and `BaseR`: `ir[8:6]` (R64). -/
def sr1Field (w : Word) : Reg := field w 6 3

/-- `SR2 = ir[2:0]` (R64). -/
def sr2Field (w : Word) : Reg := field w 0 3

/-- `mode = ir[5]` of ADD and AND: set for the immediate mode (R64). -/
def modeBit (w : Word) : Bool := w.getLsbD 5

/-- `longFlag = ir[11]`: set for JSR, clear for JSRR (R64). -/
def longFlag (w : Word) : Bool := w.getLsbD 11

/-- JMP, or RET when BaseR = 7 (R101, R102). -/
def decodeJmp (baseR : Reg) : Instr :=
  if baseR = 7#3 then .ret else .jmp baseR

/-- TRAP by its vector (R130, R131). -/
def decodeTrap (v : Byte) : Instr :=
  if v = 0x20 then .getc
  else if v = 0x21 then .out
  else if v = 0x22 then .puts
  else if v = 0x23 then .in_
  else if v = 0x24 then .putsp
  else if v = 0x25 then .halt
  else .trap v

/-- The decoder: every word is exactly one instruction (R62, R68). Ignored bits are not examined (R70). -/
def decodeWord (w : Word) : Instr :=
  match Opcode.ofBits (opcodeField w) with
  | .br => .br (drField w) (field w 0 9)
  | .add => if modeBit w then .addImm (drField w) (sr1Field w) (field w 0 5) else .addReg (drField w) (sr1Field w) (sr2Field w)
  | .ld => .ld (drField w) (field w 0 9)
  | .st => .st (drField w) (field w 0 9)
  | .jsr => if longFlag w then .jsr (field w 0 11) else .jsrr (sr1Field w)
  | .and => if modeBit w then .andImm (drField w) (sr1Field w) (field w 0 5) else .andReg (drField w) (sr1Field w) (sr2Field w)
  | .ldr => .ldr (drField w) (sr1Field w) (field w 0 6)
  | .str => .str (drField w) (sr1Field w) (field w 0 6)
  | .rti => .illegal1000
  | .not => .not (drField w) (sr1Field w)
  | .ldi => .ldi (drField w) (field w 0 9)
  | .sti => .sti (drField w) (field w 0 9)
  | .jmp => decodeJmp (sr1Field w)
  | .reserved => .illegal1101
  | .lea => .lea (drField w) (field w 0 9)
  | .trap => decodeTrap (field w 0 8)

/-- A word from its two bytes, the first being bits 15:8, as the image has them (R46, R182). -/
def wordOfBytes (hi lo : Byte) : Word := hi ++ lo

/-- Bits 15:8 of a word (R67). -/
def highByte (w : Word) : Byte := field w 8 8

/-- Bits 7:0 of a word (R67). -/
def lowByte (w : Word) : Byte := field w 0 8

/-- Why a list of bytes is no instruction. -/
inductive DecodeError where
  /-- Fewer than the two bytes that every instruction has (R60). -/
  | truncated
  deriving DecidableEq, Repr

/-- The decoder on the bytes of an image: one instruction and the bytes after it. The only rejection is a list with no
whole word in it (R60, R62). -/
def decode : List Byte → Except DecodeError (Instr × List Byte)
  | hi :: lo :: rest => .ok (decodeWord (wordOfBytes hi lo), rest)
  | [_] => .error .truncated
  | [] => .error .truncated

/-- The instruction the decoder reads from a table word: bit 0 of `w` is bit 0 of the instruction word. Every
instruction is one 16-bit word (R60), so a shorter row is filled up with zero bits. -/
def decodeTableWord (nbits w : Nat) : Option Instr :=
  if nbits ≤ 16 ∧ w < 2 ^ nbits then
    match decode [highByte (BitVec.ofNat 16 w), lowByte (BitVec.ofNat 16 w)] with
    | .ok (i, _) => some i
    | .error _ => none
  else none

/-! ### The encoder -/

/-- Put a field with its lowest bit at bit `lo`: the inverse of `field`. -/
def place {n : Nat} (f : BitVec n) (lo : Nat) : Word := f.setWidth 16 <<< lo

/-- Format OPR (R63): `oooodddsss0xxttt`, ignored bits 0. -/
def encodeOpr (op : BitVec 4) (dr sr1 sr2 : Reg) : Word := place op 12 ||| place dr 9 ||| place sr1 6 ||| place sr2 0

/-- Format OPI (R63): `oooodddsss1iiiii`. -/
def encodeOpi (op : BitVec 4) (dr sr1 : Reg) (imm5 : BitVec 5) : Word :=
  place op 12 ||| place dr 9 ||| place sr1 6 ||| place 1#1 5 ||| place imm5 0

/-- Formats PC9 and BR (R63): `oooodddqqqqqqqqq` and `0000nzpqqqqqqqqq`. -/
def encodePc9 (op : BitVec 4) (r : Reg) (off9 : BitVec 9) : Word := place op 12 ||| place r 9 ||| place off9 0

/-- Format BASE6 (R63): `oooodddsssffffff`; with `off6` zero, NOT. -/
def encodeBase6 (op : BitVec 4) (r baseR : Reg) (off6 : BitVec 6) : Word :=
  place op 12 ||| place r 9 ||| place baseR 6 ||| place off6 0

/-- Formats JMP and JSRR (R63): a base register in bits 8:6, ignored bits 0. -/
def encodeBase (op : BitVec 4) (baseR : Reg) : Word := place op 12 ||| place baseR 6

/-- Format JSR (R63): `01001LLLLLLLLLLL`. -/
def encodeJsr (off11 : BitVec 11) : Word := place 0x4#4 12 ||| place 1#1 11 ||| place off11 0

/-- Format TRAP (R63): `1111xxxxvvvvvvvv`, ignored bits 0. -/
def encodeTrap (v : Byte) : Word := place 0xF#4 12 ||| place v 0

/-- The word of an instruction, every ignored bit 0 (R63, R68). NOT is written with its ignored bits 5:0 zero too: this
hardware does not check them (R70). -/
def encode : Instr → Word
  | .addReg dr sr1 sr2 => encodeOpr 0x1 dr sr1 sr2
  | .addImm dr sr1 imm5 => encodeOpi 0x1 dr sr1 imm5
  | .andReg dr sr1 sr2 => encodeOpr 0x5 dr sr1 sr2
  | .andImm dr sr1 imm5 => encodeOpi 0x5 dr sr1 imm5
  | .not dr sr => encodeBase6 0x9 dr sr 0
  | .br nzp off9 => encodePc9 0x0 nzp off9
  | .jmp baseR => encodeBase 0xC baseR
  | .ret => encodeBase 0xC 7
  | .jsr off11 => encodeJsr off11
  | .jsrr baseR => encodeBase 0x4 baseR
  | .ld dr off9 => encodePc9 0x2 dr off9
  | .ldi dr off9 => encodePc9 0xA dr off9
  | .ldr dr baseR off6 => encodeBase6 0x6 dr baseR off6
  | .lea dr off9 => encodePc9 0xE dr off9
  | .st sr off9 => encodePc9 0x3 sr off9
  | .sti sr off9 => encodePc9 0xB sr off9
  | .str sr baseR off6 => encodeBase6 0x7 sr baseR off6
  | .trap vect8 => encodeTrap vect8
  | .getc => encodeTrap 0x20
  | .out => encodeTrap 0x21
  | .puts => encodeTrap 0x22
  | .in_ => encodeTrap 0x23
  | .putsp => encodeTrap 0x24
  | .halt => encodeTrap 0x25
  | .illegal1000 => 0x8000
  | .illegal1101 => 0xD000

/-- The bytes of an instruction as an image holds them, high byte first (R182). -/
def encodeBytes (i : Instr) : List Byte := [highByte (encode i), lowByte (encode i)]

end Sys2Proof
end

