-- ==== Sys2Proof/Config.lean ====
section
/-! DEFINITION. What is fixed for the machine (00_scope.md R6) and what the spec leaves open (R7). The open values are
opaque constants, or read off from opaque constants: nothing proved about the model can rest on what they are. -/

namespace Sys2Proof

/-- The outcome of the draw a keyboard poll makes: `pollDraw` of R7 and R172. -/
inductive PollDraw where
  | ready
  | notReady
  deriving DecidableEq, Repr, Inhabited

namespace Config

/-- The PC before the first fetch (R6, R181). -/
def startAddress : Word := 0x3000

/-- Keyboard status register KBSR (R6, R29). -/
def kbsr : Word := 0xFE00

/-- Keyboard data register KBDR (R6, R30). -/
def kbdr : Word := 0xFE02

/-- `IN_PROMPT` of R7: the finite list of codes the IN service writes first. Open in the spec (decision D16), so
uninterpreted here; log entry 7. -/
opaque inPrompt : List Word

/-! An endless sequence of yes and no is given by its gaps: how many times no comes before the first yes, between it and the
second, and so on, `none` where no yes comes again. Every sequence is so given (`exists_gaps`, Sys2Proof/Laws/Config.lean),
and whether a yes is still to come can be read off. -/

/-- At position `k`: the number of the next gap, and how many times no comes before the next yes. -/
def gapAt (gaps : Nat → Option Nat) : Nat → Nat × Option Nat
  | 0 => (1, gaps 0)
  | k + 1 =>
    match gapAt gaps k with
    | (g, none) => (g, none)
    | (g, some 0) => (g + 1, gaps g)
    | (g, some (n + 1)) => (g, some n)

/-- How many times no comes from position `k` on before the next yes; `none` if no yes comes again. -/
def untilYes (gaps : Nat → Option Nat) (k : Nat) : Option Nat := (gapAt gaps k).2

/-- The gaps between the polls that draw `notReady`. A free value (decision D22); log entry 4. -/
opaque pollGaps : Nat → Option Nat

/-- `pollDraw` of R7: what the k-th keyboard poll since reset draws, a free draw for each poll; log entry 4. -/
def pollDraw (k : Nat) : PollDraw := if untilYes pollGaps k = some 0 then .notReady else .ready

/-- The gaps between the characters of code 0 in an endless `input`. A free value; log entry 3. -/
opaque nulGaps : Nat → Option Nat

/-- The other characters of an endless `input`, by position. Free values; log entry 3. -/
opaque endlessCodes : Nat → Byte

/-- The characters of an endless `input` (R7 allows a finite or infinite sequence), by position: any sequence of codes;
log entry 3. -/
def endlessInput (pos : Nat) : Byte :=
  if untilYes nulGaps pos = some 0 then 0 else if endlessCodes pos = 0 then 1 else endlessCodes pos

end Config
end Sys2Proof
end

