-- ==== Sys2Proof/Machine/State.lean ====
section
/-! DEFINITION. The architectural state (10_state.md R20 to R34), the environment carried beside it (R31, 60_exceptions.md
R172), the reasons a step can stop, and the machine after reset (R32). -/

namespace Sys2Proof.Machine

/-- Memory as byte cells: the word at address `a` is the two cells `2a` (bits 15:8) and `2a + 1` (bits 7:0); log entry 1.
An unlisted cell reads as zero, for memory is zero-initialized (20_memory.md R40, R50). -/
abbrev Memory := List Host.Cell

/-- The run state `run`, with the boot outcome LOAD_ERROR as the fourth value of the `status` output (R16, R27). -/
inductive RunState where
  /-- The only state in which the fetch unit operates. -/
  | running
  /-- Terminal, from TRAP HALT. -/
  | halted
  /-- Terminal, from an illegal opcode. -/
  | aborted
  /-- Reached only at reset, instead of RUNNING (R183). -/
  | loadError
  deriving DecidableEq, Repr

/-- The characters the input device will deliver, in order: a finite or endless sequence (R7, R172). -/
inductive Input where
  /-- Nothing more will be delivered. -/
  | done
  /-- `c` is delivered next, then `rest`. -/
  | cons (c : Byte) (rest : Input)
  /-- Delivery never ends: from position `pos` on, the free characters `Config.endlessInput`; log entry 3. -/
  | endless (pos : Nat)
  deriving DecidableEq, Repr

/-- All the state the spec gives the machine. KBSR and KBDR are the memory words 0xFE00 and 0xFE02 (R29, R30). -/
structure State where
  /-- R0 to R7 (R20). -/
  regs : Vector Word 8
  /-- The PC: the address of the next instruction to fetch, A+1 while a body runs (R23). -/
  pc : Word
  /-- COND, one-hot: bit 2 is n, bit 1 is z, bit 0 is p (R25). -/
  cond : BitVec 3
  /-- The 65536-word memory (R40). -/
  mem : Memory
  /-- The run state, shown on `status` (R27). -/
  run : RunState
  /-- The latched instruction word (R31). -/
  ir : Word
  /-- True between the two phases of TRAP IN (R31, R138). -/
  inPhase : Bool
  /-- The environment's characters still to be delivered (R172). -/
  input : Input
  /-- The codes written so far, oldest first (R172). -/
  output : List Word
  /-- The model's own counter, not the spec's: how many keyboard polls have been made. It only picks the free draw of the
  next poll; log entry 4. -/
  polls : Nat
  deriving DecidableEq, Repr

/-- Why no next state exists. In each case the spec says "no step exists", or gives non-termination. -/
inductive Fault where
  /-- Raised by `step` in HALTED: a terminal state has no step (30_encoding.md R82). Safe. -/
  | halted
  /-- Raised by `step` in ABORTED: a terminal state has no step (R82). Safe. -/
  | aborted
  /-- Raised by `step` after LOAD_ERROR: no instruction executes (70_reset_and_hazards.md R183). Safe. -/
  | loadError
  /-- Raised by GETC, and by `step` in phase 2 of IN, when no character will be delivered: the core waits and no step
  exists (60_exceptions.md R173). The state before the step stands, and steps again once the host delivers. Safe. -/
  | waitingForInput
  /-- Raised by PUTS when its scan meets no terminator however long it goes on: the instruction never completes, which is a
  hang and never a finished step (43_trap.md R134, 60_exceptions.md R173). Only an endless input can bring it about, never
  a finite one and never PUTSP; log entry 5. Safe. -/
  | unterminatedScan
  deriving DecidableEq, Repr

/-- An instruction without a meaning. -/
inductive Refusal where
  /-- Raised by an arm of `exec` whose instruction has no meaning yet; no arm of this model is one. Safe. -/
  | notModelled (mnemonic : String)
  deriving DecidableEq, Repr

/-- The condition codes of R25: NEG = 0b100, ZRO = 0b010, POS = 0b001. -/
abbrev condNeg : BitVec 3 := 0b100#3
/-- ZRO (R25). -/
abbrev condZro : BitVec 3 := 0b010#3
/-- POS (R25). -/
abbrev condPos : BitVec 3 := 0b001#3

/-- The machine after a reset that loaded an image of no words (R32, 70_reset_and_hazards.md R180, R182). `ir` has no
value yet in the spec; log entry 2. The input is the environment's; log entry 3. -/
def State.reset : State where
  regs := Vector.replicate 8 0
  pc := Config.startAddress
  cond := condZro
  mem := []
  run := .running
  ir := 0
  inPhase := false
  input := .done
  output := []
  polls := 0

end Sys2Proof.Machine
end

