-- ==== Sys2Proof/Machine/Memory.lean ====
section
/-! DEFINITION. Raw memory: `M[a]` of 00_scope.md R11 and the store beneath every primitive, with no side effect
(20_memory.md R40, R46, R50). -/

namespace Sys2Proof.Machine

/-- What an unlisted cell reads as: memory is "zero-initialized" (R40). -/
def unlistedByte : Byte := 0

/-- One byte cell. -/
def Memory.readByte : Memory → Nat → Byte
  | [], _ => unlistedByte
  | c :: rest, n => if c.1 = n then c.2 else Memory.readByte rest n

/-- Put a cell before the first cell with a larger address. -/
def Memory.insertCell (cell : Host.Cell) : Memory → Memory
  | [] => [cell]
  | c :: rest => if cell.1 < c.1 then cell :: c :: rest else c :: Memory.insertCell cell rest

/-- Set one byte cell; a cell set to what it would read as unlisted is not listed. -/
def Memory.writeByte (m : Memory) (n : Nat) (b : Byte) : Memory :=
  let others := m.filter fun c => c.1 != n
  if b = unlistedByte then others else Memory.insertCell (n, b) others

/-- The cell that holds bits 15:8 of the word at `a`; bits 7:0 are in the next; log entry 1. -/
def Memory.cellOf (a : Word) : Nat := 2 * a.toNat

/-- `M[a]`: the stored word (R11, R46). -/
def Memory.read (m : Memory) (a : Word) : Word :=
  wordOfBytes (m.readByte (Memory.cellOf a)) (m.readByte (Memory.cellOf a + 1))

/-- `M[a] <- v` (R44): one whole word (R46). -/
def Memory.write (m : Memory) (a v : Word) : Memory :=
  (m.writeByte (Memory.cellOf a) (highByte v)).writeByte (Memory.cellOf a + 1) (lowByte v)

/-- The number of byte cells: two for each of the 65536 words (R40). -/
def Memory.cells : Nat := 131072

/-- The canonical form: addresses strictly rising, each inside the space, and no cell listed that holds what an unlisted
cell reads as. -/
def Memory.wf : Memory → Bool
  | [] => true
  | c :: rest => rest.all (fun d => c.1 < d.1) && c.1 < Memory.cells && c.2 != unlistedByte && Memory.wf rest

end Sys2Proof.Machine
end

