-- ==== Sys2Proof/Machine/Ops.lean ====
section
/-! DEFINITION. The named operations every meaning is written over: register and memory access, the device primitives,
the run-state changes, raising IllegalOpcode, and the fetch (00_scope.md R11 to R14). -/

namespace Sys2Proof.Machine

/-- What one instruction body, or one step, answers. -/
abbrev Result := Host.Outcome State Fault Refusal

/-! ### Registers (R11, R20) -/

/-- `x[i]`. -/
def State.reg (s : State) (r : Reg) : Word := s.regs[r.toNat]

/-- `x[i] <- v`. No register is hardwired (R20). -/
def State.setReg (s : State) (r : Reg) (v : Word) : State := { s with regs := s.regs.set r.toNat v }

/-- `pc <- v` (R11, R23). -/
def State.setPc (s : State) (v : Word) : State := { s with pc := v }

/-- `cond <- c` (R11). -/
def State.setCond (s : State) (c : BitVec 3) : State := { s with cond := c }

/-- `run <- r` (R11). -/
def State.setRun (s : State) (r : RunState) : State := { s with run := r }

/-- Latch the fetched word (R31). -/
def State.setIr (s : State) (w : Word) : State := { s with ir := w }

/-- `inPhase <- b` (R31, R138). -/
def State.setInPhase (s : State) (b : Bool) : State := { s with inPhase := b }

/-- `input <- i` (R172). -/
def State.setInput (s : State) (i : Input) : State := { s with input := i }

/-- Count one keyboard poll, so that the next one draws afresh; log entry 4. -/
def State.countPoll (s : State) : State := { s with polls := s.polls + 1 }

/-! ### Devices (R13, R172) -/

/-- The next character to be delivered and what follows it, if there is one. -/
def Input.next : Input → Option (Byte × Input)
  | .done => none
  | .cons c rest => some (c, rest)
  | .endless pos => some (Config.endlessInput pos, .endless (pos + 1))

/-- A finite input. -/
def Input.ofList : List Byte → Input
  | [] => .done
  | c :: cs => .cons c (Input.ofList cs)

/-- The host appends characters (R174). Nothing comes after an endless input. -/
def Input.append : Input → List Byte → Input
  | .done, cs => Input.ofList cs
  | .cons c rest, cs => .cons c (Input.append rest cs)
  | .endless pos, _ => .endless pos

/-- How many polls can take a character before the input itself ends a scan: it is exhausted, or the character has code 0
and makes KBDR a zero word; `none` if neither ever happens. -/
def Input.untilEnd : Input → Option Nat
  | .done => some 0
  | .cons c rest => if c = 0 then some 0 else rest.untilEnd.map (· + 1)
  | .endless pos => Config.untilYes Config.nulGaps pos

/-- The host appends characters to `input` (R174). -/
def State.deliver (s : State) (cs : List Byte) : State := s.setInput (s.input.append cs)

/-- `InPoll` for a given draw (R172): a character is found when the draw is ready and one is pending. -/
def State.inPollDrawn (s : State) (d : PollDraw) : Option Byte × State :=
  match s.input.next, d with
  | some (c, rest), .ready => (some c, s.countPoll.setInput rest)
  | some _, .notReady => (none, s.countPoll)
  | none, _ => (none, s.countPoll)

/-- `InPoll()`: never waits (R172). The draw is a free value. -/
def State.inPoll (s : State) : Option Byte × State := s.inPollDrawn (Config.pollDraw s.polls)

/-- `InRead()`: the next character, or `none` while there is no step to take (R172, R173). -/
def State.inRead (s : State) : Option (Byte × State) :=
  match s.input.next with
  | some (c, rest) => some (c, s.setInput rest)
  | none => none

/-- `zext_8(c)` (R10). -/
def zext8 (c : Byte) : Word := c.zeroExtend 16

/-- `OutWrite(c)`: appends one code; never fails, never waits (R172). -/
def State.outWrite (s : State) (c : Word) : State := { s with output := s.output ++ [c] }

/-- A sequence is written one code at a time, in order (R13): `OutWrite` on each code
(`State.outWriteAll_cons`, Sys2Proof/Laws/Ops.lean). -/
def State.outWriteAll (s : State) (cs : List Word) : State := { s with output := s.output ++ cs }

/-! ### Memory primitives (R12) -/

/-- The raw store `M[a] <- v`. -/
def State.store (s : State) (a v : Word) : State := { s with mem := s.mem.write a v }

/-- The poll a read of KBSR makes, before the word is returned (20_memory.md R43): a hit sets KBSR to 0x8000 and KBDR to
the code (decisions D11, D12); a miss clears KBSR and leaves KBDR. -/
def State.pollKeyboard (s : State) : State :=
  match s.inPoll with
  | (some c, t) => (t.store Config.kbsr 0x8000).store Config.kbdr (zext8 c)
  | (none, t) => t.store Config.kbsr 0x0000

/-- `MemRead(a, 1)` (R43): the word, and the state after the read. Only address 0xFE00 polls. -/
def State.memRead (s : State) (a : Word) : Word × State :=
  let t := if a = Config.kbsr then s.pollKeyboard else s
  (t.mem.read a, t)

/-- `MemWrite(a, 1, v)` (R44): a plain store at every address, KBSR and KBDR too. -/
def State.memWrite (s : State) (a v : Word) : State := s.store a v

/-! ### Control (R14) -/

/-- `raise IllegalOpcode(ir)` (60_exceptions.md R161): the one exception. It saves nothing and goes nowhere; PC already
holds A+1 and `ir` the word. There is no return from it (R168). -/
def State.raiseIllegalOpcode (s : State) : State := s.setRun .aborted

/-- `halt` (R14, 43_trap.md R137). -/
def State.haltRun (s : State) : State := s.setRun .halted

/-! ### Fetch (30_encoding.md R80) -/

/-- The fetch: read the word at `pc` (with its poll at 0xFE00), latch it, and increment the PC modulo 65536 before the
body runs (R23, R80). -/
def State.fetch (s : State) : State :=
  let r := s.memRead s.pc
  (r.2.setIr r.1).setPc (s.pc + 1)

end Sys2Proof.Machine
end

