-- ==== Sys2Proof/Machine/Operands.lean ====
section
/-! DEFINITION. Operand forms: sign extension (00_scope.md R10, 30_encoding.md R65) and the effective addresses
(42_loadstore.md R117). -/

namespace Sys2Proof.Machine

/-- `sext_N(f)` (R10): widen to 16 bits, keeping the sign. -/
def sext {n : Nat} (f : BitVec n) : Word := f.signExtend 16

/-- PC-relative: `pc + sext_N(offset)`, `pc` being A+1 during the body (R23, R117). -/
def State.pcRelative {n : Nat} (s : State) (off : BitVec n) : Word := s.pc + sext off

/-- Base + offset: `x[BaseR] + sext_6(offset6)` (R117). -/
def State.baseOffset (s : State) (baseR : Reg) (off6 : BitVec 6) : Word := s.reg baseR + sext off6

/-- Indirect: the address read from the PC-relative word, and the state after that read (R117). -/
def State.indirect (s : State) (off9 : BitVec 9) : Word × State := s.memRead (s.pcRelative off9)

end Sys2Proof.Machine
end

