-- ==== Sys2Proof/Machine/Control.lean ====
section
/-! DEFINITION. Control transfer: BR, JMP, RET, JSR, JSRR (41_control.md R100 to R105). `pc` is A+1 in every body. -/

namespace Sys2Proof.Machine

/-- The link register R7 (R105). -/
def linkReg : Reg := 7#3

/-- BR (R100). -/
def execBr (nzp : BitVec 3) (off9 : BitVec 9) (s : State) : Result :=
  .next (if nzp &&& s.cond ≠ 0 then s.setPc (s.pcRelative off9) else s)

/-- JMP (R101). -/
def execJmp (baseR : Reg) (s : State) : Result := .next (s.setPc (s.reg baseR))

/-- RET: `pc <- x[7]` (R102). -/
def execRet (s : State) : Result := .next (s.setPc (s.reg linkReg))

/-- JSR (R103). -/
def execJsr (off11 : BitVec 11) (s : State) : Result :=
  .next ((s.setReg linkReg s.pc).setPc (s.pcRelative off11))

/-- JSRR (R104): BaseR is read after the write of R7, so JSRR R7 goes on at A+1 (the spec's decision D19). -/
def execJsrr (baseR : Reg) (s : State) : Result :=
  let t := s.setReg linkReg s.pc
  .next (t.setPc (t.reg baseR))

end Sys2Proof.Machine
end

