-- ==== Sys2Proof/Machine/Flags.lean ====
section
/-! DEFINITION. The condition-flag updater (40_operate.md R90), the only flag computation of this hardware. -/

namespace Sys2Proof.Machine

/-- The flag of a written value (R90): zero, else bit 15 set, else neither. -/
def flagOf (v : Word) : BitVec 3 :=
  if v = 0x0000 then condZro
  else if v.getLsbD 15 then condNeg
  else condPos

/-- `setcc(v)` (R90). -/
def State.setcc (s : State) (v : Word) : State := s.setCond (flagOf v)

/-- `x[DR] <- v`, then `setcc(v)`: the end of every flag-updating instruction (R83, R90). -/
def State.writeResult (s : State) (dr : Reg) (v : Word) : State := (s.setReg dr v).setcc v

end Sys2Proof.Machine
end

