-- ==== Sys2Proof/Machine/LoadStore.lean ====
section
/-! DEFINITION. Loads, stores and LEA (42_loadstore.md R110 to R117). A load's read may poll the keyboard (20_memory.md
R43): the result is written to the state after the read. -/

namespace Sys2Proof.Machine

/-- Read the word at `ea` into DR and set the flags: the end of LD, LDI and LDR. -/
def State.loadFrom (s : State) (dr : Reg) (ea : Word) : State :=
  let r := s.memRead ea
  r.2.writeResult dr r.1

/-- LD (R110). -/
def execLd (dr : Reg) (off9 : BitVec 9) (s : State) : Result :=
  .next (s.loadFrom dr (s.pcRelative off9))

/-- LDI (R111): the pointer read, then the data read; either may poll. -/
def execLdi (dr : Reg) (off9 : BitVec 9) (s : State) : Result :=
  let p := s.indirect off9
  .next (p.2.loadFrom dr p.1)

/-- LDR (R112): the base is read before DR is written. -/
def execLdr (dr baseR : Reg) (off6 : BitVec 6) (s : State) : Result :=
  .next (s.loadFrom dr (s.baseOffset baseR off6))

/-- LEA (R113): no memory access, but COND is set. -/
def execLea (dr : Reg) (off9 : BitVec 9) (s : State) : Result :=
  .next (s.writeResult dr (s.pcRelative off9))

/-- ST (R114). -/
def execSt (sr : Reg) (off9 : BitVec 9) (s : State) : Result :=
  .next (s.memWrite (s.pcRelative off9) (s.reg sr))

/-- STI (R115): the pointer read may poll; the store never does. -/
def execSti (sr : Reg) (off9 : BitVec 9) (s : State) : Result :=
  let p := s.indirect off9
  .next (p.2.memWrite p.1 (p.2.reg sr))

/-- STR (R116). -/
def execStr (sr baseR : Reg) (off6 : BitVec 6) (s : State) : Result :=
  .next (s.memWrite (s.baseOffset baseR off6) (s.reg sr))

end Sys2Proof.Machine
end

