-- ==== Sys2Proof/Machine/Operate.lean ====
section
/-! DEFINITION. The operate instructions: ADD, AND, NOT (40_operate.md R91 to R97). Sources are read before the
destination is written. -/

namespace Sys2Proof.Machine

/-- ADD, register mode (R91). -/
def execAddReg (dr sr1 sr2 : Reg) (s : State) : Result :=
  .next (s.writeResult dr (s.reg sr1 + s.reg sr2))

/-- ADD, immediate mode (R92). -/
def execAddImm (dr sr1 : Reg) (imm5 : BitVec 5) (s : State) : Result :=
  .next (s.writeResult dr (s.reg sr1 + sext imm5))

/-- AND, register mode (R93). -/
def execAndReg (dr sr1 sr2 : Reg) (s : State) : Result :=
  .next (s.writeResult dr (s.reg sr1 &&& s.reg sr2))

/-- AND, immediate mode (R94). -/
def execAndImm (dr sr1 : Reg) (imm5 : BitVec 5) (s : State) : Result :=
  .next (s.writeResult dr (s.reg sr1 &&& sext imm5))

/-- NOT (R95). -/
def execNot (dr sr : Reg) (s : State) : Result :=
  .next (s.writeResult dr (~~~ s.reg sr))

end Sys2Proof.Machine
end

