-- ==== Sys2Proof/Machine/Reserved.lean ====
section
/-! DEFINITION. The two illegal opcodes (44_reserved.md R150 to R152): each raises IllegalOpcode, always. -/

namespace Sys2Proof.Machine

/-- Opcode 1000 (R150). -/
def execIllegal1000 (s : State) : Result := .next s.raiseIllegalOpcode

/-- Opcode 1101 (R151). -/
def execIllegal1101 (s : State) : Result := .next s.raiseIllegalOpcode

end Sys2Proof.Machine
end

