-- ==== Sys2Proof/Machine/Trap.lean ====
section
/-! DEFINITION. TRAP and its dispatcher (43_trap.md R130 to R141). A service saves nothing, reads no vector table and
writes no register but R0 (R140); none writes COND (decision D9). -/

namespace Sys2Proof.Machine

/-- `x[0] <- zext_8(InRead())`: GETC, and the second phase of IN (R132, R135). No step exists while no character is there
(R173). -/
def State.readChar (s : State) : Result :=
  match s.inRead with
  | some (c, t) => .next (t.setReg 0#3 (zext8 c))
  | none => .fault .waitingForInput

/-- The OUT service: `OutWrite(zext_8(x[0][7:0]))` (R133). -/
def State.putChar (s : State) : State := s.outWrite (zext8 (lowByte (s.reg 0#3)))

/-- How many polls of a scan may take a character before one surely ends it: the input ends it, or else a draw does. If
neither ever will, no poll ends the scan. -/
def State.scanPolls (s : State) : Nat :=
  match s.input.untilEnd with
  | some n => n
  | none =>
    match Config.untilYes Config.pollGaps s.polls with
    | some n => n
    | none => 0

/-- How many reads decide whether a scan ends: every 65536 reads pass 0xFE00 once, so a scan that has not ended within this
many never ends (`Obligations.PutsCompletesExactlyWhenItsScanEnds`); log entry 5. -/
def State.scanBound (s : State) : Nat := 65536 * (s.scanPolls + 2)

/-- A scan: the word at `a`, then at `a + 1` modulo 65536 (decision D15), until `one` answers that it was the last. A scan
that never ends is a hang, never a finished step (R134, R136, 60_exceptions.md R173). -/
def scan (one : Word → State → Bool × State) : Nat → Word → State → Result
  | 0, _, _ => .fault .unterminatedScan
  | n + 1, a, s =>
    match one a s with
    | (true, t) => .next t
    | (false, t) => scan one n (a + 1) t

/-- One word of PUTS (R134): read with `MemRead` (decision D14), stop at a zero word, else write the whole word (D13). -/
def putsWord (a : Word) (s : State) : Bool × State :=
  let r := s.memRead a
  if r.1 = 0x0000 then (true, r.2) else (false, r.2.outWrite r.1)

/-- One word of PUTSP (R136): low byte, then high byte; a zero word, low byte or high byte ends the whole service. -/
def putspWord (a : Word) (s : State) : Bool × State :=
  let r := s.memRead a
  if r.1 = 0x0000 then (true, r.2)
  else if lowByte r.1 = 0 then (true, r.2)
  else
    let t := r.2.outWrite (zext8 (lowByte r.1))
    if highByte r.1 = 0 then (true, t) else (false, t.outWrite (zext8 (highByte r.1)))

/-- The PUTS service from the address in R0 (R134). -/
def State.putString (s : State) : Result := scan putsWord s.scanBound (s.reg 0#3) s

/-- The PUTSP service from the address in R0 (R136). -/
def State.putPacked (s : State) : Result := scan putspWord s.scanBound (s.reg 0#3) s

/-- The first phase of IN (R135): the prompt is written, and the next step reads (R80). -/
def State.inPrompt (s : State) : State := (s.outWriteAll Config.inPrompt).setInPhase true

/-- The second phase of IN (R135): the read of GETC, then `inPhase <- false`. -/
def State.inReadPhase (s : State) : Result := (s.setInPhase false).readChar

/-- The trap dispatcher on the vector (R130, R131); any other vector has no effect (R139). -/
def trapDispatch (v : Byte) (s : State) : Result :=
  if v = 0x20 then s.readChar
  else if v = 0x21 then .next s.putChar
  else if v = 0x22 then s.putString
  else if v = 0x23 then .next s.inPrompt
  else if v = 0x24 then s.putPacked
  else if v = 0x25 then .next s.haltRun
  else .next s

/-- TRAP (R130). The decoder gives this constructor only vectors that name no service; the dispatcher is whole. -/
def execTrap (vect8 : Byte) (s : State) : Result := trapDispatch vect8 s

/-- GETC (R132). -/
def execGetc (s : State) : Result := s.readChar

/-- OUT (R133). -/
def execOut (s : State) : Result := .next s.putChar

/-- PUTS (R134). -/
def execPuts (s : State) : Result := s.putString

/-- IN, the TRAP step (R135). -/
def execIn (s : State) : Result := .next s.inPrompt

/-- PUTSP (R136). -/
def execPutsp (s : State) : Result := s.putPacked

/-- HALT (R137). -/
def execHalt (s : State) : Result := .next s.haltRun

end Sys2Proof.Machine
end

