-- ==== Sys2Proof/Machine/Loader.lean ====
section
/-! DEFINITION. Reset with an image (70_reset_and_hazards.md R180 to R183). -/

namespace Sys2Proof.Machine

/-- The words of an image body, stored contiguously from `a` on with raw stores (R182). -/
def loadWords (m : Memory) (a : Word) : List Byte → Memory
  | hi :: lo :: rest => loadWords (m.write a (wordOfBytes hi lo)) (a + 1) rest
  | [_] => m
  | [] => m

/-- The image loader (R182): the memory it leaves, or `none` for a LOAD_ERROR. `body` is what follows the origin: an odd
body, and one whose words would pass 0xFFFF (decision D21), are errors (R183). -/
def loadImage : List Byte → Option Memory
  | hi :: lo :: body =>
    let origin := wordOfBytes hi lo
    if body.length % 2 = 0 ∧ origin.toNat + body.length / 2 ≤ 65536 then some (loadWords [] origin body) else none
  | [_] => none
  | [] => none

/-- `reset(bytes)` (R180), `none` being a missing or unreadable image (R183), with the environment's `input` (R7). After a
LOAD_ERROR only `run` has a value in the spec (R33); log entry 6. -/
def State.boot (image : Option (List Byte)) (input : Input) : State :=
  match image.bind loadImage with
  | some m => { State.reset with mem := m, input := input }
  | none => { State.reset with run := .loadError, input := input }

end Sys2Proof.Machine
end

