-- ==== Sys2Proof/Machine/Step.lean ====
section
/-! DEFINITION. One step of the machine (30_encoding.md R80, R82), and how the host places one instruction. -/

namespace Sys2Proof.Machine

/-- `step()` of R80. In phase 2 of IN nothing is fetched; in a terminal state no step exists (R82, R183). -/
def step (s : State) : Host.Outcome State Fault Refusal :=
  match s.run with
  | .halted => .fault .halted
  | .aborted => .fault .aborted
  | .loadError => .fault .loadError
  | .running =>
    if s.inPhase then s.inReadPhase
    else exec (decodeWord s.fetch.ir) s.fetch

/-- Place the instruction with table word `w` where the next step fetches it: the word at `pc`. The machine is made to be
at an instruction boundary of a run in progress; and since a fetch from 0xFE00 reads what its poll stores, never what was
placed there (R43, R52), the start address is used in its place. -/
def State.withFetchWord (s : State) (nbits w : Nat) : State :=
  let a := if s.pc = Config.kbsr then Config.startAddress else s.pc
  { s with run := .running, inPhase := false, pc := a, mem := s.mem.write a (BitVec.ofNat 16 (w % 2 ^ nbits)) }

end Sys2Proof.Machine
end

