-- ==== Sys2Proof/Safety.lean ====
section
/-! DEFINITION. The terms claims use: the invariant every step keeps, what an instruction may write (10_state.md R22), and
the frame of each shape of instruction. -/

namespace Sys2Proof

/-- The bits of its word that decide an instruction: all but the ignored bits of 30_encoding.md R70. -/
def Instr.examinedBits : Instr → Word
  | .addReg _ _ _ => 0xFFE7
  | .addImm _ _ _ => 0xFFFF
  | .andReg _ _ _ => 0xFFE7
  | .andImm _ _ _ => 0xFFFF
  | .not _ _ => 0xFFC0
  | .br _ _ => 0xFFFF
  | .jmp _ => 0xF1C0
  | .ret => 0xF1C0
  | .jsr _ => 0xFFFF
  | .jsrr _ => 0xF9C0
  | .ld _ _ => 0xFFFF
  | .ldi _ _ => 0xFFFF
  | .ldr _ _ _ => 0xFFFF
  | .lea _ _ => 0xFFFF
  | .st _ _ => 0xFFFF
  | .sti _ _ => 0xFFFF
  | .str _ _ _ => 0xFFFF
  | .trap _ => 0xF0FF
  | .getc => 0xF0FF
  | .out => 0xF0FF
  | .puts => 0xF0FF
  | .in_ => 0xF0FF
  | .putsp => 0xF0FF
  | .halt => 0xF0FF
  | .illegal1000 => 0xF000
  | .illegal1101 => 0xF000

/-- The general register an instruction's own step writes (R22). The read of IN is the step after its own. -/
def Instr.writesReg : Instr → Option Reg
  | .addReg dr _ _ => some dr
  | .addImm dr _ _ => some dr
  | .andReg dr _ _ => some dr
  | .andImm dr _ _ => some dr
  | .not dr _ => some dr
  | .ld dr _ => some dr
  | .ldi dr _ => some dr
  | .ldr dr _ _ => some dr
  | .lea dr _ => some dr
  | .jsr _ => some 7#3
  | .jsrr _ => some 7#3
  | .getc => some 0#3
  | .trap v => if v = 0x20 then some 0#3 else none
  | .br _ _ => none
  | .jmp _ => none
  | .ret => none
  | .st _ _ => none
  | .sti _ _ => none
  | .str _ _ _ => none
  | .out => none
  | .puts => none
  | .in_ => none
  | .putsp => none
  | .halt => none
  | .illegal1000 => none
  | .illegal1101 => none

/-- Does the instruction write COND (R22)? -/
def Instr.writesCond : Instr → Bool
  | .addReg _ _ _ => true
  | .addImm _ _ _ => true
  | .andReg _ _ _ => true
  | .andImm _ _ _ => true
  | .not _ _ => true
  | .ld _ _ => true
  | .ldi _ _ => true
  | .ldr _ _ _ => true
  | .lea _ _ => true
  | .br _ _ => false
  | .jmp _ => false
  | .ret => false
  | .jsr _ => false
  | .jsrr _ => false
  | .st _ _ => false
  | .sti _ _ => false
  | .str _ _ _ => false
  | .trap _ => false
  | .getc => false
  | .out => false
  | .puts => false
  | .in_ => false
  | .putsp => false
  | .halt => false
  | .illegal1000 => false
  | .illegal1101 => false

/-- Does the instruction's body write the PC, beside the fetch's increment (R22)? -/
def Instr.writesPc : Instr → Bool
  | .br _ _ => true
  | .jmp _ => true
  | .ret => true
  | .jsr _ => true
  | .jsrr _ => true
  | .addReg _ _ _ => false
  | .addImm _ _ _ => false
  | .andReg _ _ _ => false
  | .andImm _ _ _ => false
  | .not _ _ => false
  | .ld _ _ => false
  | .ldi _ _ => false
  | .ldr _ _ _ => false
  | .lea _ _ => false
  | .st _ _ => false
  | .sti _ _ => false
  | .str _ _ _ => false
  | .trap _ => false
  | .getc => false
  | .out => false
  | .puts => false
  | .in_ => false
  | .putsp => false
  | .halt => false
  | .illegal1000 => false
  | .illegal1101 => false

end Sys2Proof

namespace Sys2Proof.Machine

/-- COND is exactly one of NEG, ZRO, POS (R34). -/
abbrev State.CondOneHot (s : State) : Prop := s.cond = condNeg ∨ s.cond = condZro ∨ s.cond = condPos

/-- The invariant: memory is in its canonical form, COND is one-hot (R34), and `inPhase` is true only in a running machine
(R138). -/
abbrev State.Inv (s : State) : Prop :=
  s.mem.wf = true ∧ s.CondOneHot ∧ (s.inPhase = true → s.run = .running)

/-- Is the input a finite sequence (R7)? -/
def Input.isFinite : Input → Bool
  | .done => true
  | .cons _ rest => rest.isFinite
  | .endless _ => false

/-- What is left of the input after `k` characters have been consumed (R172). -/
def Input.drop : Nat → Input → Input
  | 0, i => i
  | k + 1, i =>
    match i.next with
    | some (_, rest) => Input.drop k rest
    | none => i

/-- The loop of PUTS read as a rule (43_trap.md R134): from address `a` in `s` it ends, after finitely many words, in `t`. -/
inductive PutsEnds : Word → State → State → Prop where
  /-- The word read is zero: the loop ends in the state after the read. -/
  | zero {a : Word} {s : State} : (s.memRead a).1 = 0 → PutsEnds a s (s.memRead a).2
  /-- The word read is not zero: it is written, and the loop goes on at the next address. -/
  | word {a : Word} {s t : State} : (s.memRead a).1 ≠ 0 →
      PutsEnds (a + 1) ((s.memRead a).2.outWrite (s.memRead a).1) t → PutsEnds a s t

/-- Change the next state an outcome holds, if it holds one. -/
def mapNext (f : State → State) : Result → Result
  | .next t => .next (f t)
  | .fault r => .fault r
  | .refused r => .refused r

/-- The address an instruction stores to, as its meaning computes it: ST, STI (from the state after the
pointer read) and STR (42_loadstore.md R114 to R116). -/
def State.storeAddress (s : State) : Instr → Option Word
  | .st _ off9 => some (s.pcRelative off9)
  | .sti _ off9 => some (s.indirect off9).1
  | .str _ baseR off6 => some (s.baseOffset baseR off6)
  | .addReg _ _ _ => none
  | .addImm _ _ _ => none
  | .andReg _ _ _ => none
  | .andImm _ _ _ => none
  | .not _ _ => none
  | .br _ _ => none
  | .jmp _ => none
  | .ret => none
  | .jsr _ => none
  | .jsrr _ => none
  | .ld _ _ => none
  | .ldi _ _ => none
  | .ldr _ _ _ => none
  | .lea _ _ => none
  | .trap _ => none
  | .getc => none
  | .out => none
  | .puts => none
  | .in_ => none
  | .putsp => none
  | .halt => none
  | .illegal1000 => none
  | .illegal1101 => none

/-! ### Frames -/

/-- Every byte of memory reads as before. -/
abbrev SameBytes (s t : State) : Prop := ∀ n, t.mem.readByte n = s.mem.readByte n

/-- Every byte outside the word at `a` reads as before. -/
abbrev SameBytesBut (a : Word) (s t : State) : Prop :=
  ∀ n, n ≠ Memory.cellOf a → n ≠ Memory.cellOf a + 1 → t.mem.readByte n = s.mem.readByte n

/-- Every general register reads as before. -/
abbrev SameRegs (s t : State) : Prop := ∀ r, t.reg r = s.reg r

/-- Every general register but `d` reads as before. -/
abbrev SameRegsBut (d : Reg) (s t : State) : Prop := ∀ r, r ≠ d → t.reg r = s.reg r

/-- The keyboard side is unchanged: the input, and the model's own poll counter. -/
structure SameInput (s t : State) : Prop where
  input : t.input = s.input
  polls : t.polls = s.polls

/-- The run state, the latched word and `inPhase` are unchanged. -/
structure SameControl (s t : State) : Prop where
  run : t.run = s.run
  ir : t.ir = s.ir
  inPhase : t.inPhase = s.inPhase

/-- From `s` to `t`, `v` was written to `dr`, COND was set from `v` as R90 says, and nothing else changed. -/
structure WroteResult (s t : State) (dr : Reg) (v : Word) : Prop where
  result : t.reg dr = v
  zero : v = 0 → t.cond = condZro
  negative : v ≠ 0 → v.getLsbD 15 = true → t.cond = condNeg
  positive : v ≠ 0 → v.getLsbD 15 = false → t.cond = condPos
  regs : SameRegsBut dr s t
  pc : t.pc = s.pc
  bytes : SameBytes s t
  control : SameControl s t
  keyboard : SameInput s t
  output : t.output = s.output

/-- What a read may not touch, polling or not (20_memory.md R43): everything but the words KBSR and KBDR, the input, the
poll counter and the output. -/
structure SameCore (s t : State) : Prop where
  regs : t.regs = s.regs
  pc : t.pc = s.pc
  cond : t.cond = s.cond
  run : t.run = s.run
  ir : t.ir = s.ir
  inPhase : t.inPhase = s.inPhase
  words : ∀ a, a ≠ Config.kbsr → a ≠ Config.kbdr → t.mem.read a = s.mem.read a
  canonical : s.mem.wf = true → t.mem.wf = true

/-- From `s` to `t` the PC became `target`, and nothing else changed. -/
structure WentTo (s t : State) (target : Word) : Prop where
  pc : t.pc = target
  regs : SameRegs s t
  cond : t.cond = s.cond
  bytes : SameBytes s t
  control : SameControl s t
  keyboard : SameInput s t
  output : t.output = s.output

/-- From `s` to `t`, R7 got the return address, the PC became `target`, and nothing else changed. -/
structure Called (s t : State) (target : Word) : Prop where
  link : t.reg 7#3 = s.pc
  pc : t.pc = target
  regs : SameRegsBut 7#3 s t
  cond : t.cond = s.cond
  bytes : SameBytes s t
  control : SameControl s t
  keyboard : SameInput s t
  output : t.output = s.output

/-- From `s` to `t` the word at `a` became `v`, and nothing else changed. -/
structure StoredWord (s t : State) (a v : Word) : Prop where
  word : t.mem.read a = v
  bytes : SameBytesBut a s t
  regs : SameRegs s t
  pc : t.pc = s.pc
  cond : t.cond = s.cond
  control : SameControl s t
  keyboard : SameInput s t
  output : t.output = s.output

/-- From `s` to `t` the codes `cs` were written to the output, and nothing else changed. -/
structure WroteCodes (s t : State) (cs : List Word) : Prop where
  output : t.output = s.output ++ cs
  regs : SameRegs s t
  pc : t.pc = s.pc
  cond : t.cond = s.cond
  bytes : SameBytes s t
  control : SameControl s t
  keyboard : SameInput s t

/-- From `s` to `t` the next input character `c` was consumed and zero-extended into R0, leaving `rest`; nothing else
changed. -/
structure ReadChar (s t : State) (c : Byte) (rest : Input) : Prop where
  result : t.reg 0#3 = c.zeroExtend 16
  input : t.input = rest
  polls : t.polls = s.polls
  regs : SameRegsBut 0#3 s t
  pc : t.pc = s.pc
  cond : t.cond = s.cond
  bytes : SameBytes s t
  run : t.run = s.run
  ir : t.ir = s.ir
  output : t.output = s.output

/-- From `s` to `t` the run state became `r`, and nothing else changed. -/
structure RunBecame (s t : State) (r : RunState) : Prop where
  run : t.run = r
  regs : SameRegs s t
  pc : t.pc = s.pc
  cond : t.cond = s.cond
  bytes : SameBytes s t
  ir : t.ir = s.ir
  inPhase : t.inPhase = s.inPhase
  keyboard : SameInput s t
  output : t.output = s.output

end Sys2Proof.Machine
end

