-- ==== Sys2Proof/Certificates/Slice0/Obligations.lean ====
section
/-! DEFINITION. The statements for the provers, in the order of the rules of spec/. The opcode numbers in the encoding
clauses are those the rules print; the spec chose them (decision D6), as it chose the trap vectors (decision D7) and the bits
of COND (decision D5). -/

open Sys2Proof Sys2Proof.Machine

/-! ### Fields and sign extension -/

/-- 30_encoding.md R66: sign extension copies the field's top bit into every higher bit; the last clause is the number of
00_scope.md R10. -/
def Obligations.SignExtensionCopiesTopBit : Prop :=
  ∀ (n : Nat) (f : BitVec n), 1 ≤ n → n ≤ 16 →
    (∀ i, i < n → (sext f).getLsbD i = f.getLsbD i) ∧
    (∀ i, n ≤ i → i < 16 → (sext f).getLsbD i = f.getLsbD (n - 1)) ∧
    (sext f).toNat = if f.toNat < 2 ^ (n - 1) then f.toNat else f.toNat + 65536 - 2 ^ n

/-! ### Decoder and encoder -/

/-- Every well-formed instruction decodes from its own word, and from its two bytes whatever follows them (R61 to R65). -/
def Obligations.DecodeOfEncodeIsTheInstruction : Prop :=
  ∀ (i : Instr) (rest : List Byte), i.wf = true →
    decodeWord (encode i) = i ∧ decode (encodeBytes i ++ rest) = .ok (i, rest)

/-- R62: every word is an instruction in its spelling by the decoder, of the word's own opcode, and opcodes 1000 and 1101
are exactly the two illegal ones. -/
def Obligations.EveryWordDecodesToOneInstruction : Prop :=
  ∀ w : Word, (decodeWord w).wf = true ∧
    opcodeField (encode (decodeWord w)) = w.extractLsb' 12 4 ∧
    (w.extractLsb' 12 4 = 0x8 ↔ decodeWord w = .illegal1000) ∧
    (w.extractLsb' 12 4 = 0xD ↔ decodeWord w = .illegal1101)

/-- R70 (the spec's decision D20): the encoder gives back the word with its ignored bits zeroed, so the decoder drops the
ignored bits and no others, and words that agree on the examined bits decode alike. -/
def Obligations.DecoderDropsOnlyIgnoredBits : Prop :=
  (∀ w : Word, encode (decodeWord w) = w &&& (decodeWord w).examinedBits) ∧
  ∀ v w : Word, v &&& (decodeWord v).examinedBits = w &&& (decodeWord v).examinedBits → decodeWord w = decodeWord v

/-- Words written out from the format table (R63), one for each family, with the operands the spec's examples give. -/
def Obligations.SampleWordsDecode : Prop :=
  decodeWord 0x1283 = .addReg 1 2 3 ∧ decodeWord 0x127F = .addImm 1 1 0x1F ∧ decodeWord 0x997F = .not 4 5 ∧
  decodeWord 0x03FD = .br 0b001 0x1FD ∧ decodeWord 0xC1C0 = .ret ∧ decodeWord 0x4805 = .jsr 5 ∧
  decodeWord 0x64FF = .ldr 2 3 0x3F ∧ decodeWord 0xB400 = .sti 2 0 ∧ decodeWord 0xF025 = .halt ∧
  decodeWord 0xD123 = .illegal1101

/-! ### Flags and operate instructions -/

/-- R90: `setcc` sets exactly one flag, by the value alone, and changes nothing but COND. -/
def Obligations.SetccClassifiesTheValue : Prop :=
  ∀ (s : State) (v : Word),
    (v = 0 → (s.setcc v).cond = condZro) ∧
    (v ≠ 0 → v.getLsbD 15 = true → (s.setcc v).cond = condNeg) ∧
    (v ≠ 0 → v.getLsbD 15 = false → (s.setcc v).cond = condPos) ∧
    (s.setcc v).CondOneHot ∧
    { s.setcc v with cond := s.cond } = s

/-- R91 and R92: ADD in both modes. `WroteResult` holds the flags and the frame. -/
def Obligations.AddWritesTheSum : Prop :=
  (∀ w : Word, w &&& 0xF020 = 0x1000 →
    decodeWord w = .addReg (w.extractLsb' 9 3) (w.extractLsb' 6 3) (w.extractLsb' 0 3)) ∧
  (∀ w : Word, w &&& 0xF020 = 0x1020 →
    decodeWord w = .addImm (w.extractLsb' 9 3) (w.extractLsb' 6 3) (w.extractLsb' 0 5)) ∧
  (∀ (dr sr1 sr2 : Reg) (s : State), ∃ t, exec (.addReg dr sr1 sr2) s = .next t ∧
    WroteResult s t dr (s.reg sr1 + s.reg sr2)) ∧
  ∀ (dr sr1 : Reg) (imm5 : BitVec 5) (s : State), ∃ t, exec (.addImm dr sr1 imm5) s = .next t ∧
    WroteResult s t dr (s.reg sr1 + imm5.signExtend 16)

/-- R93 and R94: AND in both modes. -/
def Obligations.AndWritesTheConjunction : Prop :=
  (∀ w : Word, w &&& 0xF020 = 0x5000 →
    decodeWord w = .andReg (w.extractLsb' 9 3) (w.extractLsb' 6 3) (w.extractLsb' 0 3)) ∧
  (∀ w : Word, w &&& 0xF020 = 0x5020 →
    decodeWord w = .andImm (w.extractLsb' 9 3) (w.extractLsb' 6 3) (w.extractLsb' 0 5)) ∧
  (∀ (dr sr1 sr2 : Reg) (s : State), ∃ t, exec (.andReg dr sr1 sr2) s = .next t ∧
    WroteResult s t dr (s.reg sr1 &&& s.reg sr2)) ∧
  ∀ (dr sr1 : Reg) (imm5 : BitVec 5) (s : State), ∃ t, exec (.andImm dr sr1 imm5) s = .next t ∧
    WroteResult s t dr (s.reg sr1 &&& imm5.signExtend 16)

/-- R95: NOT, whatever its ignored bits hold. -/
def Obligations.NotWritesTheComplement : Prop :=
  (∀ w : Word, w &&& 0xF000 = 0x9000 → decodeWord w = .not (w.extractLsb' 9 3) (w.extractLsb' 6 3)) ∧
  ∀ (dr sr : Reg) (s : State), ∃ t, exec (.not dr sr) s = .next t ∧ WroteResult s t dr (~~~ s.reg sr)

/-! ### Control -/

/-- R100: BR. `pc` at the body is A+1. -/
def Obligations.BranchGoesToItsTarget : Prop :=
  (∀ w : Word, w &&& 0xF000 = 0x0000 → decodeWord w = .br (w.extractLsb' 9 3) (w.extractLsb' 0 9)) ∧
  ∀ (nzp : BitVec 3) (off9 : BitVec 9) (s : State), ∃ t, exec (.br nzp off9) s = .next t ∧
    WentTo s t (if nzp &&& s.cond ≠ 0 then s.pc + off9.signExtend 16 else s.pc)

/-- R71, which the spec derives from R100 and R34: nzp = 000 is never taken; nzp = 111 always, COND being one-hot. -/
def Obligations.BranchNeverAndAlways : Prop :=
  (∀ (off9 : BitVec 9) (s : State), ∃ t, exec (.br 0b000 off9) s = .next t ∧ t = s) ∧
  ∀ (off9 : BitVec 9) (s : State), s.CondOneHot →
    ∃ t, exec (.br 0b111 off9) s = .next t ∧ WentTo s t (s.pc + off9.signExtend 16)

/-- R101 and R102: JMP, and RET as its word with BaseR = 7. -/
def Obligations.JumpAndReturnGoToTheRegister : Prop :=
  (∀ w : Word, w &&& 0xF000 = 0xC000 →
    decodeWord w = if w.extractLsb' 6 3 = 7#3 then .ret else .jmp (w.extractLsb' 6 3)) ∧
  (∀ w : Word, w &&& 0xF1C0 = 0xC1C0 → decodeWord w = .ret) ∧
  (∀ (baseR : Reg) (s : State), ∃ t, exec (.jmp baseR) s = .next t ∧ WentTo s t (s.reg baseR)) ∧
  ∀ s : State, ∃ t, exec .ret s = .next t ∧ WentTo s t (s.reg 7#3)

/-- R103: JSR saves the return address in R7 and goes to its target. -/
def Obligations.JsrSavesTheReturnAddress : Prop :=
  (∀ w : Word, w &&& 0xF800 = 0x4800 → decodeWord w = .jsr (w.extractLsb' 0 11)) ∧
  ∀ (off11 : BitVec 11) (s : State), ∃ t, exec (.jsr off11) s = .next t ∧
    Called s t (s.pc + off11.signExtend 16)

/-- R104: JSRR. That BaseR = 7 reads the return address just written is the spec's decision D19. -/
def Obligations.JsrrReadsTheBaseAfterTheLink : Prop :=
  (∀ w : Word, w &&& 0xF800 = 0x4000 → decodeWord w = .jsrr (w.extractLsb' 6 3)) ∧
  ∀ (baseR : Reg) (s : State), ∃ t, exec (.jsrr baseR) s = .next t ∧
    Called s t (if baseR = 7#3 then s.pc else s.reg baseR)

/-- 41_control.md and 70_reset_and_hazards.md R186, at the level of a step: a call at address A saves A+1, and JSR's
offset counts from A+1. -/
def Obligations.CallStepSavesTheFollowingAddress : Prop :=
  (∀ (s : State) (off11 : BitVec 11), s.run = .running → s.inPhase = false → decodeWord s.fetch.ir = .jsr off11 →
    ∃ t, step s = .next t ∧ t.reg 7#3 = s.pc + 1 ∧ t.pc = s.pc + 1 + off11.signExtend 16) ∧
  ∀ (s : State) (baseR : Reg), s.run = .running → s.inPhase = false → decodeWord s.fetch.ir = .jsrr baseR →
    baseR ≠ 7#3 → ∃ t, step s = .next t ∧ t.reg 7#3 = s.pc + 1 ∧ t.pc = s.reg baseR

/-! ### Memory -/

/-- 20_memory.md R43 with decisions D11 and D12: only a read of 0xFE00 polls. Whether a pending character is found is the
free draw `Config.pollDraw` at the model's own counter `polls` (log entry 4), so the two outcomes of a poll are told apart in
the conclusion; either way the next poll draws at the next count (R7: a draw per poll). -/
def Obligations.MemReadPollsOnlyKbsr : Prop :=
  (∀ (s : State) (a : Word), a ≠ 0xFE00 → s.memRead a = (s.mem.read a, s)) ∧
  ∀ s : State, ∃ t v, s.memRead 0xFE00 = (v, t) ∧ v = t.mem.read 0xFE00 ∧ SameCore s t ∧ t.output = s.output ∧
    t.polls = s.polls + 1 ∧
    match s.input.next, Config.pollDraw s.polls with
    | some (c, rest), .ready => v = 0x8000 ∧ t.mem.read 0xFE02 = c.zeroExtend 16 ∧ t.input = rest
    | _, _ => v = 0x0000 ∧ t.mem.read 0xFE02 = s.mem.read 0xFE02 ∧ t.input = s.input

/-- R44: `MemWrite` stores the word, at KBSR and KBDR too, and does nothing else. -/
def Obligations.MemWriteIsAPlainStore : Prop :=
  ∀ (s : State) (a v : Word), StoredWord s (s.memWrite a v) a v ∧ ∀ b, b ≠ a → (s.memWrite a v).mem.read b = s.mem.read b

/-- 60_exceptions.md R172 (decisions D12, D22, D27): the three device primitives, `InPoll` for each draw. Which draw a poll
makes is the model's choice (log entry 4): the free value `Config.pollDraw` at the counter `polls`, which every poll advances
and nothing else of the three does. -/
def Obligations.DevicePrimitives : Prop :=
  (∀ (s : State) (c : Byte) (rest : Input), s.input.next = some (c, rest) →
    (∃ t, s.inPollDrawn .ready = (some c, t) ∧ t.input = rest ∧ t.polls = s.polls + 1) ∧
    (∃ t, s.inPollDrawn .notReady = (none, t) ∧ t.input = s.input ∧ t.polls = s.polls + 1) ∧
    ∃ t, s.inRead = some (c, t) ∧ t.input = rest ∧ t.polls = s.polls) ∧
  (∀ s : State, s.input.next = none →
    (∀ d, ∃ t, s.inPollDrawn d = (none, t) ∧ t.input = s.input ∧ t.polls = s.polls + 1) ∧ s.inRead = none) ∧
  (∀ s : State, s.inPoll = s.inPollDrawn (Config.pollDraw s.polls)) ∧
  ∀ (s : State) (c : Word), (s.outWrite c).output = s.output ++ [c] ∧ (s.outWrite c).polls = s.polls

/-- 60_exceptions.md R174 (decision D23): the host appends characters to the input and touches nothing else. They come after
those still pending, in the order given, and later ones after earlier ones. -/
def Obligations.HostAppendsToTheInput : Prop :=
  (∀ (s : State) (cs : List Byte), { s.deliver cs with input := s.input } = s) ∧
  (∀ (s : State) (c : Byte) (rest : Input) (cs : List Byte), s.input.next = some (c, rest) →
    (s.deliver cs).input.next = some (c, ((s.setInput rest).deliver cs).input)) ∧
  (∀ (s : State) (c : Byte) (cs : List Byte), s.input.next = none →
    (s.deliver (c :: cs)).input.next = some (c, (s.deliver cs).input)) ∧
  (∀ s : State, s.deliver [] = s) ∧
  ∀ (s : State) (cs ds : List Byte), (s.deliver cs).deliver ds = s.deliver (cs ++ ds)

/-- 42_loadstore.md R110: LD. The result is written to the state after the read. -/
def Obligations.LdLoadsTheWord : Prop :=
  (∀ w : Word, w &&& 0xF000 = 0x2000 → decodeWord w = .ld (w.extractLsb' 9 3) (w.extractLsb' 0 9)) ∧
  ∀ (dr : Reg) (off9 : BitVec 9) (s : State), ∃ t, exec (.ld dr off9) s = .next t ∧
    WroteResult (s.memRead (s.pc + off9.signExtend 16)).2 t dr (s.memRead (s.pc + off9.signExtend 16)).1

/-- R111: LDI, two reads in order. -/
def Obligations.LdiLoadsThroughThePointer : Prop :=
  (∀ w : Word, w &&& 0xF000 = 0xA000 → decodeWord w = .ldi (w.extractLsb' 9 3) (w.extractLsb' 0 9)) ∧
  ∀ (dr : Reg) (off9 : BitVec 9) (s s1 s2 : State) (p v : Word),
    s.memRead (s.pc + off9.signExtend 16) = (p, s1) → s1.memRead p = (v, s2) →
    ∃ t, exec (.ldi dr off9) s = .next t ∧ WroteResult s2 t dr v

/-- R112: LDR. The base is the register's value before DR is written. -/
def Obligations.LdrLoadsFromBasePlusOffset : Prop :=
  (∀ w : Word, w &&& 0xF000 = 0x6000 →
    decodeWord w = .ldr (w.extractLsb' 9 3) (w.extractLsb' 6 3) (w.extractLsb' 0 6)) ∧
  ∀ (dr baseR : Reg) (off6 : BitVec 6) (s : State), ∃ t, exec (.ldr dr baseR off6) s = .next t ∧
    WroteResult (s.memRead (s.reg baseR + off6.signExtend 16)).2 t dr (s.memRead (s.reg baseR + off6.signExtend 16)).1

/-- R113: LEA writes the address, sets COND and reads no memory. -/
def Obligations.LeaWritesTheAddress : Prop :=
  (∀ w : Word, w &&& 0xF000 = 0xE000 → decodeWord w = .lea (w.extractLsb' 9 3) (w.extractLsb' 0 9)) ∧
  ∀ (dr : Reg) (off9 : BitVec 9) (s : State), ∃ t, exec (.lea dr off9) s = .next t ∧
    WroteResult s t dr (s.pc + off9.signExtend 16)

/-- R114: ST. -/
def Obligations.StStoresTheRegister : Prop :=
  (∀ w : Word, w &&& 0xF000 = 0x3000 → decodeWord w = .st (w.extractLsb' 9 3) (w.extractLsb' 0 9)) ∧
  ∀ (sr : Reg) (off9 : BitVec 9) (s : State), ∃ t, exec (.st sr off9) s = .next t ∧
    StoredWord s t (s.pc + off9.signExtend 16) (s.reg sr)

/-- R115: STI, the pointer read and then the store, which never polls. -/
def Obligations.StiStoresThroughThePointer : Prop :=
  (∀ w : Word, w &&& 0xF000 = 0xB000 → decodeWord w = .sti (w.extractLsb' 9 3) (w.extractLsb' 0 9)) ∧
  ∀ (sr : Reg) (off9 : BitVec 9) (s s1 : State) (p : Word),
    s.memRead (s.pc + off9.signExtend 16) = (p, s1) →
    ∃ t, exec (.sti sr off9) s = .next t ∧ StoredWord s1 t p (s.reg sr)

/-- R116: STR. -/
def Obligations.StrStoresAtBasePlusOffset : Prop :=
  (∀ w : Word, w &&& 0xF000 = 0x7000 →
    decodeWord w = .str (w.extractLsb' 9 3) (w.extractLsb' 6 3) (w.extractLsb' 0 6)) ∧
  ∀ (sr baseR : Reg) (off6 : BitVec 6) (s : State), ∃ t, exec (.str sr baseR off6) s = .next t ∧
    StoredWord s t (s.reg baseR + off6.signExtend 16) (s.reg sr)

/-- 20_memory.md R52 and 70_reset_and_hazards.md R190: a fetch from the address just stored to reads the stored word, and
the executing instruction's own word stays latched. 0xFE00 is apart: a fetch there reads what its poll stores (R43). -/
def Obligations.StoreIsSeenByTheNextFetch : Prop :=
  (∀ (sr : Reg) (off9 : BitVec 9) (s : State), s.pc + off9.signExtend 16 ≠ 0xFE00 →
    ∃ t, exec (.st sr off9) s = .next t ∧ t.ir = s.ir ∧
      (t.setPc (s.pc + off9.signExtend 16)).fetch.ir = s.reg sr) ∧
  (∀ (sr : Reg) (off9 : BitVec 9) (s : State), (s.memRead (s.pc + off9.signExtend 16)).1 ≠ 0xFE00 →
    ∃ t, exec (.sti sr off9) s = .next t ∧ t.ir = s.ir ∧
      (t.setPc (s.memRead (s.pc + off9.signExtend 16)).1).fetch.ir = s.reg sr) ∧
  ∀ (sr baseR : Reg) (off6 : BitVec 6) (s : State), s.reg baseR + off6.signExtend 16 ≠ 0xFE00 →
    ∃ t, exec (.str sr baseR off6) s = .next t ∧ t.ir = s.ir ∧
      (t.setPc (s.reg baseR + off6.signExtend 16)).fetch.ir = s.reg sr

/-! ### Traps -/

/-- 43_trap.md R130, R131 and R139 (decisions D7, D10): the dispatcher looks at the low 8 bits only; six vectors are the
services and any other has no effect. -/
def Obligations.TrapDispatchesOnItsVector : Prop :=
  (∀ w : Word, w &&& 0xF0FF = 0xF020 → decodeWord w = .getc) ∧
  (∀ w : Word, w &&& 0xF0FF = 0xF021 → decodeWord w = .out) ∧
  (∀ w : Word, w &&& 0xF0FF = 0xF022 → decodeWord w = .puts) ∧
  (∀ w : Word, w &&& 0xF0FF = 0xF023 → decodeWord w = .in_) ∧
  (∀ w : Word, w &&& 0xF0FF = 0xF024 → decodeWord w = .putsp) ∧
  (∀ w : Word, w &&& 0xF0FF = 0xF025 → decodeWord w = .halt) ∧
  (∀ w : Word, w &&& 0xF000 = 0xF000 → w.extractLsb' 0 8 < 0x20#8 ∨ 0x25#8 < w.extractLsb' 0 8 →
    decodeWord w = .trap (w.extractLsb' 0 8)) ∧
  (∀ s : State, exec (.trap 0x20) s = exec .getc s ∧ exec (.trap 0x21) s = exec .out s ∧
    exec (.trap 0x22) s = exec .puts s ∧ exec (.trap 0x23) s = exec .in_ s ∧
    exec (.trap 0x24) s = exec .putsp s ∧ exec (.trap 0x25) s = exec .halt s) ∧
  ∀ (v : Byte) (s : State), v < 0x20 ∨ 0x25 < v → exec (.trap v) s = .next s

/-- R132 (no COND write: decision D9): GETC takes the next character into R0. -/
def Obligations.GetcReadsTheNextCharacter : Prop :=
  ∀ (s : State) (c : Byte) (rest : Input), s.input.next = some (c, rest) →
    ∃ t, exec .getc s = .next t ∧ ReadChar s t c rest ∧ t.inPhase = s.inPhase

/-- R133: OUT writes the low byte of R0. The number x21 is the spec's decision D7, and that bits 11:8 are ignored is R130
with decision D20. -/
def Obligations.OutWritesTheLowByte : Prop :=
  (∀ w : Word, w &&& 0xF0FF = 0xF021 → decodeWord w = .out) ∧
  ∀ s : State, ∃ t, exec .out s = .next t ∧ WroteCodes s t [((s.reg 0#3).extractLsb' 0 8).zeroExtend 16]

/-- R134 (decisions D13, D15): over words none of which is KBSR, PUTS writes them up to the first zero word. In the second
clause the string runs into KBSR with no character pending: the poll clears KBSR and the string ends there (D14). -/
def Obligations.PutsWritesUpToTheZeroWord : Prop :=
  (∀ (s : State) (ws : List Word),
    (∀ (k : Nat) (h : k < ws.length), s.reg 0#3 + BitVec.ofNat 16 k ≠ 0xFE00 ∧
      s.mem.read (s.reg 0#3 + BitVec.ofNat 16 k) = ws[k] ∧ ws[k] ≠ 0) →
    s.reg 0#3 + BitVec.ofNat 16 ws.length ≠ 0xFE00 → s.mem.read (s.reg 0#3 + BitVec.ofNat 16 ws.length) = 0 →
    ∃ t, exec .puts s = .next t ∧ WroteCodes s t ws) ∧
  ∀ (s : State) (ws : List Word),
    (∀ (k : Nat) (h : k < ws.length), s.reg 0#3 + BitVec.ofNat 16 k ≠ 0xFE00 ∧
      s.mem.read (s.reg 0#3 + BitVec.ofNat 16 k) = ws[k] ∧ ws[k] ≠ 0) →
    s.reg 0#3 + BitVec.ofNat 16 ws.length = 0xFE00 → s.input.next = none →
    ∃ t, exec .puts s = .next t ∧ SameCore s t ∧ t.output = s.output ++ ws ∧ t.input = s.input ∧
      t.mem.read 0xFE00 = 0 ∧ t.mem.read 0xFE02 = s.mem.read 0xFE02

/-- R134's loop, over every memory, input and poll outcome: PUTS either stops at the word it reads, or writes it and goes on
as PUTS from the next address (R0 itself being left as it was), completing or hanging as that does. -/
def Obligations.PutsObeysItsLoop : Prop :=
  ∀ s : State,
    if (s.memRead (s.reg 0#3)).1 = 0 then exec .puts s = .next (s.memRead (s.reg 0#3)).2
    else exec .puts s =
      mapNext (fun t => t.setReg 0#3 (s.reg 0#3))
        (exec .puts (((s.memRead (s.reg 0#3)).2.outWrite (s.memRead (s.reg 0#3)).1).setReg 0#3 (s.reg 0#3 + 1)))

/-- R134 and 60_exceptions.md R173, over every memory, input and poll outcome: PUTS answers a next state exactly when its loop
ends there after finitely many words, and otherwise, when the loop never ends, the fault that stands for the hang (the fault
is log entry 5's; R173 asks that an unterminated scan be no completed instruction). -/
def Obligations.PutsCompletesExactlyWhenItsScanEnds : Prop :=
  (∀ s t : State, exec .puts s = .next t ↔ PutsEnds (s.reg 0#3) s t) ∧
  ∀ s : State, exec .puts s = .fault .unterminatedScan ↔ ∀ t, ¬ PutsEnds (s.reg 0#3) s t

/-- R136 (decision D15): over words none of which is KBSR, PUTSP writes low byte then high byte of each whole word, and of
the last word its low byte if that is not zero; the first zero byte or word ends the service. -/
def Obligations.PutspWritesPackedBytes : Prop :=
  ∀ (s : State) (ws : List Word) (last : Word),
    (∀ (k : Nat) (h : k < ws.length), s.reg 0#3 + BitVec.ofNat 16 k ≠ 0xFE00 ∧
      s.mem.read (s.reg 0#3 + BitVec.ofNat 16 k) = ws[k] ∧ ws[k].extractLsb' 0 8 ≠ 0#8 ∧ ws[k].extractLsb' 8 8 ≠ 0#8) →
    s.reg 0#3 + BitVec.ofNat 16 ws.length ≠ 0xFE00 → s.mem.read (s.reg 0#3 + BitVec.ofNat 16 ws.length) = last →
    last.extractLsb' 0 8 = 0#8 ∨ last.extractLsb' 8 8 = 0#8 →
    ∃ t, exec .putsp s = .next t ∧
      WroteCodes s t (ws.flatMap (fun w => [(w.extractLsb' 0 8).zeroExtend 16, (w.extractLsb' 8 8).zeroExtend 16]) ++
        if last.extractLsb' 0 8 = 0#8 then [] else [(last.extractLsb' 0 8).zeroExtend 16])

/-- R136's loop, over every memory, input and poll outcome: PUTSP stops at a zero low byte, stops after the low byte at a
zero high byte, and else writes both and goes on as PUTSP from the next address (R0 itself being left as it was). -/
def Obligations.PutspObeysItsLoop : Prop :=
  ∀ (s s1 : State) (w : Word), s.memRead (s.reg 0#3) = (w, s1) →
    if w.extractLsb' 0 8 = 0#8 then exec .putsp s = .next s1
    else if w.extractLsb' 8 8 = 0#8 then
      exec .putsp s = .next { s1 with output := s1.output ++ [(w.extractLsb' 0 8).zeroExtend 16] }
    else exec .putsp s =
      mapNext (fun t => t.setReg 0#3 (s.reg 0#3))
        (exec .putsp ({ s1 with
            output := s1.output ++ [(w.extractLsb' 0 8).zeroExtend 16, (w.extractLsb' 8 8).zeroExtend 16]
          }.setReg 0#3 (s.reg 0#3 + 1)))

/-- The model's reading of the scans (log entry 5, DEDUCED from 43_trap.md R134 and R136 with 20_memory.md R43; R136 itself
says that a string with no terminator hangs): no PUTS scan hangs on a finite input, for every 65536 reads poll the keyboard
once; and PUTSP never hangs, for both words a poll leaves in KBSR have a zero low byte. -/
def Obligations.ScansEndOnFiniteInput : Prop :=
  (∀ s : State, s.input.isFinite = true → ∃ t, exec .puts s = .next t ∧ SameCore s t) ∧
  ∀ s : State, ∃ t, exec .putsp s = .next t ∧ SameCore s t

/-- R135 (decisions D9, D16, D17): IN writes the prompt in its own step and reads in the next, with no fetch between. -/
def Obligations.InPromptsThenReads : Prop :=
  (∀ s : State, ∃ t, exec .in_ s = .next t ∧ t.inPhase = true ∧ t.output = s.output ++ Config.inPrompt ∧ SameRegs s t ∧
    t.pc = s.pc ∧ t.cond = s.cond ∧ SameBytes s t ∧ t.run = s.run ∧ t.ir = s.ir ∧ SameInput s t) ∧
  ∀ (s : State) (c : Byte) (rest : Input), s.run = .running → s.inPhase = true → s.input.next = some (c, rest) →
    ∃ t, step s = .next t ∧ ReadChar s t c rest ∧ t.inPhase = false

/-- R137 (no output: decision D18): HALT ends the run and changes nothing else. -/
def Obligations.HaltEndsTheRun : Prop :=
  ∀ s : State, ∃ t, exec .halt s = .next t ∧ RunBecame s t .halted

/-- 60_exceptions.md R173 and R177: with nothing to deliver GETC and phase 2 of IN take no step; once the host delivers a
character the same state steps and takes it, all other state having survived the wait. That "no step" is the fault
`waitingForInput` is the model's choice, log entry 11. -/
def Obligations.WaitEndsWhenACharacterArrives : Prop :=
  (∀ (s : State) (c : Byte) (cs : List Byte), s.input.next = none →
    exec .getc s = .fault .waitingForInput ∧
    ∃ t, exec .getc (s.deliver (c :: cs)) = .next t ∧ ReadChar s t c (Input.ofList cs)) ∧
  ∀ (s : State) (c : Byte) (cs : List Byte), s.run = .running → s.inPhase = true → s.input.next = none →
    step s = .fault .waitingForInput ∧
    ∃ t, step (s.deliver (c :: cs)) = .next t ∧ ReadChar s t c (Input.ofList cs)

/-! ### Illegal opcodes and the step -/

/-- 44_reserved.md R152 and 60_exceptions.md R161: both illegal opcodes end the run in ABORTED; of the step, only the
fetch and the PC increment show; and no step follows. -/
def Obligations.IllegalOpcodeAborts : Prop :=
  (∀ s : State, ∃ t, exec .illegal1000 s = .next t ∧ RunBecame s t .aborted) ∧
  (∀ s : State, ∃ t, exec .illegal1101 s = .next t ∧ RunBecame s t .aborted) ∧
  ∀ s : State, s.run = .running → s.inPhase = false →
    (s.memRead s.pc).1.extractLsb' 12 4 = 0x8#4 ∨ (s.memRead s.pc).1.extractLsb' 12 4 = 0xD#4 →
    ∃ t, step s = .next t ∧ t.run = .aborted ∧ t.pc = s.pc + 1 ∧ t.ir = (s.memRead s.pc).1 ∧ SameRegs s t ∧
      t.cond = s.cond ∧ SameBytes (s.memRead s.pc).2 t ∧ t.inPhase = s.inPhase ∧ SameInput (s.memRead s.pc).2 t ∧
      t.output = s.output ∧ ∀ u, step t ≠ .next u

/-- 30_encoding.md R80: a step needs RUNNING; in phase 2 of IN it completes the read; else it fetches, latches the word,
increments the PC and runs the decoded instruction. Where phase 2 finds no character there is no next state. -/
def Obligations.StepRunsTheDecodedInstruction : Prop :=
  (∀ s t : State, step s = .next t → s.run = .running) ∧
  (∀ s : State, s.run = .running → s.inPhase = true →
    match s.input.next with
    | some (c, rest) => step s = .next (((s.setInput rest).setReg 0#3 (c.zeroExtend 16)).setInPhase false)
    | none => ∀ t, step s ≠ .next t) ∧
  ∀ (s s1 : State) (w : Word), s.run = .running → s.inPhase = false → s.memRead s.pc = (w, s1) →
    step s = exec (decodeWord w) { s1 with ir := w, pc := s.pc + 1 }

/-- R82: no step exists in HALTED or ABORTED, and a HALT takes effect in its own step. -/
def Obligations.TerminalStatesHaveNoStep : Prop :=
  (∀ s t : State, s.run = .halted ∨ s.run = .aborted → step s ≠ .next t) ∧
  ∀ s : State, s.run = .running → s.inPhase = false → decodeWord (s.memRead s.pc).1 = .halt →
    ∃ t, step s = .next t ∧ t.run = .halted ∧ ∀ u, step t ≠ .next u

/-- 10_state.md R27: only HALT leads to HALTED and only an illegal opcode to ABORTED; LOAD_ERROR is never reached by a
step; and the fetch unit operates in RUNNING alone. -/
def Obligations.OnlyHaltAndIllegalEndTheRun : Prop :=
  ∀ s t : State, step s = .next t →
    s.run = .running ∧ t.run ≠ .loadError ∧
    (t.run = .halted ↔ s.inPhase = false ∧ decodeWord (s.memRead s.pc).1 = .halt) ∧
    (t.run = .aborted ↔ s.inPhase = false ∧
      (decodeWord (s.memRead s.pc).1 = .illegal1000 ∨ decodeWord (s.memRead s.pc).1 = .illegal1101))

/-- R138: `inPhase` becomes true in the TRAP step of IN alone; and while it is true the only step is phase 2, which fetches
nothing and makes it false. -/
def Obligations.InPhaseLastsOneStep : Prop :=
  (∀ s t : State, s.inPhase = false → step s = .next t →
    (t.inPhase = true ↔ decodeWord (s.memRead s.pc).1 = .in_)) ∧
  ∀ s t : State, s.inPhase = true → step s = .next t →
    t.inPhase = false ∧ t.pc = s.pc ∧ t.ir = s.ir ∧ SameRegsBut 0#3 s t ∧ SameBytes s t ∧ t.output = s.output

/-- In a run with finite input every step of a running machine is taken and leaves a finite input, unless it waits: in phase
2 of IN, or at a GETC just fetched, with no character left (R163, R173). It rests on log entry 5 (scans end) and log entry 11
(a wait is the fault `waitingForInput`). -/
def Obligations.RunningStepOnlyEverWaits : Prop :=
  ∀ s : State, s.run = .running → s.input.isFinite = true →
    if s.inPhase = true then
      (s.input.next = none ∧ step s = .fault .waitingForInput) ∨
        (s.input.next ≠ none ∧ ∃ t, step s = .next t ∧ t.input.isFinite = true)
    else
      (decodeWord (s.memRead s.pc).1 = .getc ∧ (s.memRead s.pc).2.input.next = none ∧ step s = .fault .waitingForInput) ∨
      (¬ (decodeWord (s.memRead s.pc).1 = .getc ∧ (s.memRead s.pc).2.input.next = none) ∧
        ∃ t, step s = .next t ∧ t.input.isFinite = true)

/-! ### Reset and boot -/

/-- R32, with the values the spec decided there (D3, D4, D17, D28). `ir`, `input` and `polls` have no value in the spec
(log entries 2, 3 and 4) and are left out. -/
def Obligations.ResetValues : Prop :=
  (∀ r, State.reset.reg r = 0) ∧ State.reset.pc = 0x3000 ∧ State.reset.cond = 0b010 ∧
  (∀ a, State.reset.mem.read a = 0) ∧ State.reset.run = .running ∧ State.reset.inPhase = false ∧
  State.reset.output = []

/-- 70_reset_and_hazards.md R181: whatever the image's origin, the first fetch is from 0x3000; and if the image does not
cover it, that step is a BR never taken. -/
def Obligations.BootStartsAtTheFixedAddress : Prop :=
  (∀ (bytes : List Byte) (m : Memory) (input : Input), loadImage bytes = some m →
    (State.boot (some bytes) input).pc = 0x3000 ∧ (State.boot (some bytes) input).run = .running ∧
    (State.boot (some bytes) input).fetch.ir = m.read 0x3000) ∧
  ∀ (hi lo : Byte) (body : List Byte) (input : Input), body.length % 2 = 0 →
    (hi ++ lo : Word).toNat + body.length / 2 ≤ 65536 →
    0x3000 < (hi ++ lo : Word).toNat ∨ (hi ++ lo : Word).toNat + body.length / 2 ≤ 0x3000 →
    ∃ t, step (State.boot (some (hi :: lo :: body)) input) = .next t ∧ t.pc = 0x3001 ∧ t.ir = 0 ∧
      SameRegs (State.boot (some (hi :: lo :: body)) input) t ∧ t.run = .running

/-- R180 and R182 (with D21's bound): the image's words stand at origin, origin + 1, …, and every other word is zero. -/
def Obligations.LoaderPlacesTheWords : Prop :=
  ∀ (hi lo : Byte) (body : List Byte) (input : Input), body.length % 2 = 0 →
    (hi ++ lo : Word).toNat + body.length / 2 ≤ 65536 →
    (∀ k, k < body.length / 2 →
      (State.boot (some (hi :: lo :: body)) input).mem.read ((hi ++ lo : Word) + BitVec.ofNat 16 k) =
        body.getD (2 * k) 0 ++ body.getD (2 * k + 1) 0) ∧
    ∀ a : Word, a.toNat < (hi ++ lo : Word).toNat ∨ (hi ++ lo : Word).toNat + body.length / 2 ≤ a.toNat →
      (State.boot (some (hi :: lo :: body)) input).mem.read a = 0

/-- R183 (its last case is decision D21): which images are a LOAD_ERROR; no step follows one, and any other boots. -/
def Obligations.LoadErrorExactlyWhenMalformed : Prop :=
  ∀ (image : Option (List Byte)) (input : Input),
    ((State.boot image input).run = .loadError ↔
      image = none ∨ ∃ bytes, image = some bytes ∧
        (bytes.length < 2 ∨ bytes.length % 2 = 1 ∨
          65536 < (bytes.getD 0 0 ++ bytes.getD 1 0 : Word).toNat + (bytes.length / 2 - 1))) ∧
    ((State.boot image input).run = .loadError → ∀ t, step (State.boot image input) ≠ .next t) ∧
    ((State.boot image input).run ≠ .loadError → (State.boot image input).run = .running)

/-! ### Whole-machine rules -/

/-- The invariant holds after reset: COND is one-hot (R34); memory is in the canonical form of log entry 1; `inPhase` is true
only in RUNNING, which log entry 13 DEDUCED. -/
def Obligations.ResetMeetsTheInvariant : Prop := State.reset.Inv

/-- The invariant (R34, log entries 1 and 13) holds after booting any image that loads: the loader keeps memory canonical.
After a LOAD_ERROR the spec gives COND and memory no value (R33, log entry 6), and nothing is said of them. -/
def Obligations.BootMeetsTheInvariant : Prop :=
  ∀ (bytes : List Byte) (m : Memory) (input : Input), loadImage bytes = some m → (State.boot (some bytes) input).Inv

/-- Every step keeps the invariant: COND stays one-hot (R34); memory stays in the model's canonical form (log entry 1); and
`inPhase` is true only in RUNNING (DEDUCED, log entry 13). -/
def Obligations.StepKeepsTheInvariant : Prop := ∀ s t : State, s.Inv → step s = .next t → t.Inv

/-- 10_state.md R22, the table of write sites: no instruction writes a register, COND or the PC unless the table lists it;
the fetch adds one to the PC; and phase 2 of IN writes R0 alone. -/
def Obligations.OnlyListedInstructionsWriteRegisters : Prop :=
  (∀ (i : Instr) (s t : State), exec i s = .next t →
    (∀ r, i.writesReg ≠ some r → t.reg r = s.reg r) ∧
    (i.writesCond = false → t.cond = s.cond) ∧
    (i.writesPc = false → t.pc = s.pc)) ∧
  (∀ s : State, SameRegs s s.fetch ∧ s.fetch.cond = s.cond ∧ s.fetch.pc = s.pc + 1) ∧
  ∀ s t : State, s.inPhase = true → step s = .next t → SameRegsBut 0#3 s t ∧ t.cond = s.cond ∧ t.pc = s.pc

/-- 20_memory.md R42: a word of memory changes only by a store to it, whose address is computed as the meaning computes it, or,
if it is KBSR or KBDR, by a poll; an instruction has polled exactly if the model's counter `polls` (log entry 4) moved. -/
def Obligations.OnlyStoresAndPollsChangeMemory : Prop :=
  ∀ (i : Instr) (s t : State) (a : Word), exec i s = .next t → s.storeAddress i ≠ some a →
    (a ≠ 0xFE00 → a ≠ 0xFE02 → t.mem.read a = s.mem.read a) ∧
    (t.polls = s.polls → t.mem.read a = s.mem.read a)

/-- R26: COND is written only from the value written to a register, and read only by BR: any other instruction does the
same whatever COND holds, and leaves that in COND or overwrites it. -/
def Obligations.OnlyBranchesReadCond : Prop :=
  (∀ (i : Instr) (s t : State), exec i s = .next t → i.writesCond = true →
    ∃ dr, i.writesReg = some dr ∧ t.cond = flagOf (t.reg dr)) ∧
  (∀ (i : Instr) (s t : State), exec i s = .next t → i.writesCond = false → t.cond = s.cond) ∧
  ∀ (i : Instr) (s : State) (c : BitVec 3), (∀ nzp off9, i ≠ .br nzp off9) →
    exec i (s.setCond c) = mapNext (fun t => if i.writesCond then t else t.setCond c) (exec i s)

/-- 60_exceptions.md R172 and 43_trap.md R141: a step never takes back an output code, and takes input characters from the
front only. -/
def Obligations.OutputGrowsAndInputIsConsumed : Prop :=
  ∀ s t : State, step s = .next t → s.output <+: t.output ∧ ∃ k, t.input = s.input.drop k
end

