-- ==== Sys2Proof/Laws/Config.lean ====
section
/-! SUPPORT. Endless sequences given by their gaps: how the count to the next yes goes down, and that no sequence is left
out. -/

namespace Sys2Proof.Config

/-- One position on, the next yes is one nearer. -/
theorem untilYes_succ {gaps : Nat → Option Nat} {k n : Nat} (h : untilYes gaps k = some (n + 1)) :
    untilYes gaps (k + 1) = some n := by
  unfold untilYes at h ⊢
  rw [gapAt]
  split <;> simp_all

/-- Where no yes comes again, none does later. -/
theorem untilYes_none {gaps : Nat → Option Nat} {k : Nat} (h : untilYes gaps k = none) :
    untilYes gaps (k + 1) = none := by
  unfold untilYes at h ⊢
  rw [gapAt]
  split <;> simp_all

/-- How far the next yes of `yes` is from `k`, if there is one. -/
noncomputable def toNext (yes : Nat → Bool) (k : Nat) : Option Nat := by
  classical exact if h : ∃ j, yes (k + j) = true then some (Nat.find h) else none

theorem toNext_eq_some {yes : Nat → Bool} {k n : Nat} :
    toNext yes k = some n ↔ yes (k + n) = true ∧ ∀ j < n, yes (k + j) = false := by
  classical
  unfold toNext
  split
  · next h => simp [Nat.find_eq_iff]
  · next h =>
    simp only [not_exists] at h
    simp [h]

theorem toNext_eq_none {yes : Nat → Bool} {k : Nat} : toNext yes k = none ↔ ∀ j, yes (k + j) = false := by
  classical
  unfold toNext
  split
  · next h => simpa using h
  · next h => simpa using h

theorem toNext_succ {yes : Nat → Bool} {k n : Nat} (h : toNext yes k = some (n + 1)) : toNext yes (k + 1) = some n := by
  rw [toNext_eq_some] at h ⊢
  refine ⟨by rw [show k + 1 + n = k + (n + 1) by omega]; exact h.1, fun j hj => ?_⟩
  rw [show k + 1 + j = k + (j + 1) by omega]; exact h.2 _ (by omega)

theorem toNext_none {yes : Nat → Bool} {k : Nat} (h : toNext yes k = none) : toNext yes (k + 1) = none := by
  rw [toNext_eq_none] at h ⊢
  intro j; rw [show k + 1 + j = k + (j + 1) by omega]; exact h _

/-- Where the g-th gap of `yes` begins. -/
noncomputable def gapStart (yes : Nat → Bool) : Nat → Nat
  | 0 => 0
  | g + 1 => gapStart yes g + (toNext yes (gapStart yes g)).getD 0 + 1

/-- Read by its gaps, `yes` is at every position as far from its next yes as it is. -/
theorem gapAt_toNext (yes : Nat → Bool) (k : Nat) :
    ∃ g, gapAt (fun g => toNext yes (gapStart yes g)) k = (g + 1, toNext yes k) ∧
      ∀ n, toNext yes k = some n → gapStart yes (g + 1) = k + n + 1 := by
  induction k with
  | zero => exact ⟨0, rfl, fun n h => by simp [gapStart, h]⟩
  | succ k ih =>
    obtain ⟨g, hg, hs⟩ := ih
    rw [gapAt, hg]
    match h : toNext yes k with
    | none => exact ⟨g, by simp [toNext_none h], fun n hn => by simp [toNext_none h] at hn⟩
    | some 0 =>
      have e : gapStart yes (g + 1) = k + 1 := by simpa using hs 0 h
      exact ⟨g + 1, by simp [e], fun n hn => by rw [gapStart, e, hn]; rfl⟩
    | some (m + 1) =>
      refine ⟨g, by simp [toNext_succ h], fun n hn => ?_⟩
      rw [toNext_succ h] at hn; cases hn
      rw [hs _ h]; omega

/-- Every endless sequence of yes and no is given by some gaps: no sequence of draws, and no placing of the characters of
code 0, is left out. -/
theorem exists_gaps (yes : Nat → Bool) : ∃ gaps, ∀ k, untilYes gaps k = some 0 ↔ yes k = true := by
  refine ⟨fun g => toNext yes (gapStart yes g), fun k => ?_⟩
  obtain ⟨g, hg, -⟩ := gapAt_toNext yes k
  rw [untilYes, hg]
  simp [toNext_eq_some]

end Sys2Proof.Config
end

