-- ==== Sys2Proof/Laws/Decode.lean ====
section
/-! SUPPORT. Fields of a word: how a field reads in a word put together from placed fields, and in a word known only under
a mask. The encoder's and the decoder's laws are cited from here. -/

namespace Sys2Proof

theorem field_or (v w : Word) (lo len : Nat) : field (v ||| w) lo len = field v lo len ||| field w lo len := by
  apply BitVec.eq_of_getLsbD_eq
  intro i hi
  simp [field, hi]

/-- A placed field reads back. -/
theorem field_place_self {n : Nat} (f : BitVec n) (lo : Nat) (h : lo + n ≤ 16) : field (place f lo) lo n = f := by
  apply BitVec.eq_of_getLsbD_eq
  intro i hi
  simp [field, place, hi, show lo + i < 16 by omega]

/-- A field reads zero in a word whose placed field lies elsewhere. -/
theorem field_place_disjoint {n : Nat} (f : BitVec n) (lo k len : Nat) (h : lo + n ≤ k ∨ k + len ≤ lo) :
    field (place f lo) k len = 0 := by
  apply BitVec.eq_of_getLsbD_eq
  intro i hi
  simp only [field, place, BitVec.getLsbD_extractLsb', BitVec.getLsbD_shiftLeft, BitVec.getLsbD_setWidth, hi]
  rcases h with h | h
  · have : f.getLsbD (k + i - lo) = false := BitVec.getLsbD_of_ge _ _ (by omega)
    simp [this]
  · simp [show k + i < lo by omega]

/-- A single bit is a field of length 1. -/
theorem getLsbD_eq_field (w : Word) (i : Nat) : w.getLsbD i = (field w i 1).getLsbD 0 := by
  simp [field]

/-- A field that a mask covers reads as it does in the masked word. -/
theorem field_of_mask {w m v : Word} (h : w &&& m = v) (lo len : Nat)
    (hm : field m lo len = BitVec.allOnes len) : field w lo len = field v lo len := by
  have := congrArg (fun x => field x lo len) h
  simp only [field] at this hm
  rw [BitVec.extractLsb'_and, hm, BitVec.and_allOnes] at this
  exact this

/-- The opcode of a word known under a mask that covers bits 15:12. -/
theorem opcodeField_of_mask {w m v : Word} (h : w &&& m = v) (hm : field m 12 4 = BitVec.allOnes 4) :
    opcodeField w = opcodeField v := field_of_mask h 12 4 hm

/-- A bit that a mask covers reads as it does in the masked word. -/
theorem getLsbD_of_mask {w m v : Word} (h : w &&& m = v) (i : Nat) (hm : m.getLsbD i = true) :
    w.getLsbD i = v.getLsbD i := by
  have := congrArg (fun x => x.getLsbD i) h
  simpa [hm] using this

/-! ### The two mode bits in the encoder's words -/

theorem modeBit_encodeOpr (op : BitVec 4) (r r1 r2 : Reg) : modeBit (encodeOpr op r r1 r2) = false := by
  simp [modeBit, encodeOpr, place]

theorem modeBit_encodeOpi (op : BitVec 4) (r r1 : Reg) (imm5 : BitVec 5) : modeBit (encodeOpi op r r1 imm5) = true := by
  simp [modeBit, encodeOpi, place]

theorem longFlag_encodeJsr (off11 : BitVec 11) : longFlag (encodeJsr off11) = true := by
  simp [longFlag, encodeJsr, place]

theorem longFlag_encodeBase (op : BitVec 4) (baseR : Reg) : longFlag (encodeBase op baseR) = false := by
  simp [longFlag, encodeBase, place]

end Sys2Proof
end

