-- ==== Sys2Proof/Laws/State.lean ====
section
/-! SUPPORT. What each named update does to each field of `State`: one lemma per field and update, true by `rfl`, so that
no later proof unfolds a record update; and the two laws of register access. -/

namespace Sys2Proof.Machine

variable (s : State)

/-! ### `setReg` -/

@[simp] theorem State.setReg_pc (r : Reg) (v : Word) : (s.setReg r v).pc = s.pc := rfl
@[simp] theorem State.setReg_cond (r : Reg) (v : Word) : (s.setReg r v).cond = s.cond := rfl
@[simp] theorem State.setReg_mem (r : Reg) (v : Word) : (s.setReg r v).mem = s.mem := rfl
@[simp] theorem State.setReg_run (r : Reg) (v : Word) : (s.setReg r v).run = s.run := rfl
@[simp] theorem State.setReg_ir (r : Reg) (v : Word) : (s.setReg r v).ir = s.ir := rfl
@[simp] theorem State.setReg_inPhase (r : Reg) (v : Word) : (s.setReg r v).inPhase = s.inPhase := rfl
@[simp] theorem State.setReg_input (r : Reg) (v : Word) : (s.setReg r v).input = s.input := rfl
@[simp] theorem State.setReg_output (r : Reg) (v : Word) : (s.setReg r v).output = s.output := rfl
@[simp] theorem State.setReg_polls (r : Reg) (v : Word) : (s.setReg r v).polls = s.polls := rfl

/-! ### `setPc` -/

@[simp] theorem State.setPc_pc (v : Word) : (s.setPc v).pc = v := rfl
@[simp] theorem State.setPc_cond (v : Word) : (s.setPc v).cond = s.cond := rfl
@[simp] theorem State.setPc_mem (v : Word) : (s.setPc v).mem = s.mem := rfl
@[simp] theorem State.setPc_run (v : Word) : (s.setPc v).run = s.run := rfl
@[simp] theorem State.setPc_ir (v : Word) : (s.setPc v).ir = s.ir := rfl
@[simp] theorem State.setPc_inPhase (v : Word) : (s.setPc v).inPhase = s.inPhase := rfl
@[simp] theorem State.setPc_input (v : Word) : (s.setPc v).input = s.input := rfl
@[simp] theorem State.setPc_output (v : Word) : (s.setPc v).output = s.output := rfl
@[simp] theorem State.setPc_polls (v : Word) : (s.setPc v).polls = s.polls := rfl
@[simp] theorem State.setPc_regs (v : Word) : (s.setPc v).regs = s.regs := rfl
@[simp] theorem State.setPc_reg (v : Word) (i : Reg) : (s.setPc v).reg i = s.reg i := rfl

/-! ### `setCond` -/

@[simp] theorem State.setCond_pc (c : BitVec 3) : (s.setCond c).pc = s.pc := rfl
@[simp] theorem State.setCond_cond (c : BitVec 3) : (s.setCond c).cond = c := rfl
@[simp] theorem State.setCond_mem (c : BitVec 3) : (s.setCond c).mem = s.mem := rfl
@[simp] theorem State.setCond_run (c : BitVec 3) : (s.setCond c).run = s.run := rfl
@[simp] theorem State.setCond_ir (c : BitVec 3) : (s.setCond c).ir = s.ir := rfl
@[simp] theorem State.setCond_inPhase (c : BitVec 3) : (s.setCond c).inPhase = s.inPhase := rfl
@[simp] theorem State.setCond_input (c : BitVec 3) : (s.setCond c).input = s.input := rfl
@[simp] theorem State.setCond_output (c : BitVec 3) : (s.setCond c).output = s.output := rfl
@[simp] theorem State.setCond_polls (c : BitVec 3) : (s.setCond c).polls = s.polls := rfl
@[simp] theorem State.setCond_regs (c : BitVec 3) : (s.setCond c).regs = s.regs := rfl
@[simp] theorem State.setCond_reg (c : BitVec 3) (i : Reg) : (s.setCond c).reg i = s.reg i := rfl

/-! ### `setRun` -/

@[simp] theorem State.setRun_pc (r : RunState) : (s.setRun r).pc = s.pc := rfl
@[simp] theorem State.setRun_cond (r : RunState) : (s.setRun r).cond = s.cond := rfl
@[simp] theorem State.setRun_mem (r : RunState) : (s.setRun r).mem = s.mem := rfl
@[simp] theorem State.setRun_run (r : RunState) : (s.setRun r).run = r := rfl
@[simp] theorem State.setRun_ir (r : RunState) : (s.setRun r).ir = s.ir := rfl
@[simp] theorem State.setRun_inPhase (r : RunState) : (s.setRun r).inPhase = s.inPhase := rfl
@[simp] theorem State.setRun_input (r : RunState) : (s.setRun r).input = s.input := rfl
@[simp] theorem State.setRun_output (r : RunState) : (s.setRun r).output = s.output := rfl
@[simp] theorem State.setRun_polls (r : RunState) : (s.setRun r).polls = s.polls := rfl
@[simp] theorem State.setRun_regs (r : RunState) : (s.setRun r).regs = s.regs := rfl
@[simp] theorem State.setRun_reg (r : RunState) (i : Reg) : (s.setRun r).reg i = s.reg i := rfl

/-! ### `setIr` -/

@[simp] theorem State.setIr_pc (w : Word) : (s.setIr w).pc = s.pc := rfl
@[simp] theorem State.setIr_cond (w : Word) : (s.setIr w).cond = s.cond := rfl
@[simp] theorem State.setIr_mem (w : Word) : (s.setIr w).mem = s.mem := rfl
@[simp] theorem State.setIr_run (w : Word) : (s.setIr w).run = s.run := rfl
@[simp] theorem State.setIr_ir (w : Word) : (s.setIr w).ir = w := rfl
@[simp] theorem State.setIr_inPhase (w : Word) : (s.setIr w).inPhase = s.inPhase := rfl
@[simp] theorem State.setIr_input (w : Word) : (s.setIr w).input = s.input := rfl
@[simp] theorem State.setIr_output (w : Word) : (s.setIr w).output = s.output := rfl
@[simp] theorem State.setIr_polls (w : Word) : (s.setIr w).polls = s.polls := rfl
@[simp] theorem State.setIr_regs (w : Word) : (s.setIr w).regs = s.regs := rfl
@[simp] theorem State.setIr_reg (w : Word) (i : Reg) : (s.setIr w).reg i = s.reg i := rfl

/-! ### `setInPhase` -/

@[simp] theorem State.setInPhase_pc (b : Bool) : (s.setInPhase b).pc = s.pc := rfl
@[simp] theorem State.setInPhase_cond (b : Bool) : (s.setInPhase b).cond = s.cond := rfl
@[simp] theorem State.setInPhase_mem (b : Bool) : (s.setInPhase b).mem = s.mem := rfl
@[simp] theorem State.setInPhase_run (b : Bool) : (s.setInPhase b).run = s.run := rfl
@[simp] theorem State.setInPhase_ir (b : Bool) : (s.setInPhase b).ir = s.ir := rfl
@[simp] theorem State.setInPhase_inPhase (b : Bool) : (s.setInPhase b).inPhase = b := rfl
@[simp] theorem State.setInPhase_input (b : Bool) : (s.setInPhase b).input = s.input := rfl
@[simp] theorem State.setInPhase_output (b : Bool) : (s.setInPhase b).output = s.output := rfl
@[simp] theorem State.setInPhase_polls (b : Bool) : (s.setInPhase b).polls = s.polls := rfl
@[simp] theorem State.setInPhase_regs (b : Bool) : (s.setInPhase b).regs = s.regs := rfl
@[simp] theorem State.setInPhase_reg (b : Bool) (i : Reg) : (s.setInPhase b).reg i = s.reg i := rfl

/-! ### `setInput` -/

@[simp] theorem State.setInput_pc (inp : Input) : (s.setInput inp).pc = s.pc := rfl
@[simp] theorem State.setInput_cond (inp : Input) : (s.setInput inp).cond = s.cond := rfl
@[simp] theorem State.setInput_mem (inp : Input) : (s.setInput inp).mem = s.mem := rfl
@[simp] theorem State.setInput_run (inp : Input) : (s.setInput inp).run = s.run := rfl
@[simp] theorem State.setInput_ir (inp : Input) : (s.setInput inp).ir = s.ir := rfl
@[simp] theorem State.setInput_inPhase (inp : Input) : (s.setInput inp).inPhase = s.inPhase := rfl
@[simp] theorem State.setInput_input (inp : Input) : (s.setInput inp).input = inp := rfl
@[simp] theorem State.setInput_output (inp : Input) : (s.setInput inp).output = s.output := rfl
@[simp] theorem State.setInput_polls (inp : Input) : (s.setInput inp).polls = s.polls := rfl
@[simp] theorem State.setInput_regs (inp : Input) : (s.setInput inp).regs = s.regs := rfl
@[simp] theorem State.setInput_reg (inp : Input) (i : Reg) : (s.setInput inp).reg i = s.reg i := rfl

/-! ### `countPoll` -/

@[simp] theorem State.countPoll_pc : (s.countPoll).pc = s.pc := rfl
@[simp] theorem State.countPoll_cond : (s.countPoll).cond = s.cond := rfl
@[simp] theorem State.countPoll_mem : (s.countPoll).mem = s.mem := rfl
@[simp] theorem State.countPoll_run : (s.countPoll).run = s.run := rfl
@[simp] theorem State.countPoll_ir : (s.countPoll).ir = s.ir := rfl
@[simp] theorem State.countPoll_inPhase : (s.countPoll).inPhase = s.inPhase := rfl
@[simp] theorem State.countPoll_input : (s.countPoll).input = s.input := rfl
@[simp] theorem State.countPoll_output : (s.countPoll).output = s.output := rfl
@[simp] theorem State.countPoll_polls : (s.countPoll).polls = s.polls + 1 := rfl
@[simp] theorem State.countPoll_regs : (s.countPoll).regs = s.regs := rfl
@[simp] theorem State.countPoll_reg (i : Reg) : (s.countPoll).reg i = s.reg i := rfl

/-! ### `outWrite` -/

@[simp] theorem State.outWrite_pc (c : Word) : (s.outWrite c).pc = s.pc := rfl
@[simp] theorem State.outWrite_cond (c : Word) : (s.outWrite c).cond = s.cond := rfl
@[simp] theorem State.outWrite_mem (c : Word) : (s.outWrite c).mem = s.mem := rfl
@[simp] theorem State.outWrite_run (c : Word) : (s.outWrite c).run = s.run := rfl
@[simp] theorem State.outWrite_ir (c : Word) : (s.outWrite c).ir = s.ir := rfl
@[simp] theorem State.outWrite_inPhase (c : Word) : (s.outWrite c).inPhase = s.inPhase := rfl
@[simp] theorem State.outWrite_input (c : Word) : (s.outWrite c).input = s.input := rfl
@[simp] theorem State.outWrite_output (c : Word) : (s.outWrite c).output = s.output ++ [c] := rfl
@[simp] theorem State.outWrite_polls (c : Word) : (s.outWrite c).polls = s.polls := rfl
@[simp] theorem State.outWrite_regs (c : Word) : (s.outWrite c).regs = s.regs := rfl
@[simp] theorem State.outWrite_reg (c : Word) (i : Reg) : (s.outWrite c).reg i = s.reg i := rfl

/-! ### `store` -/

@[simp] theorem State.store_pc (a v : Word) : (s.store a v).pc = s.pc := rfl
@[simp] theorem State.store_cond (a v : Word) : (s.store a v).cond = s.cond := rfl
@[simp] theorem State.store_mem (a v : Word) : (s.store a v).mem = s.mem.write a v := rfl
@[simp] theorem State.store_run (a v : Word) : (s.store a v).run = s.run := rfl
@[simp] theorem State.store_ir (a v : Word) : (s.store a v).ir = s.ir := rfl
@[simp] theorem State.store_inPhase (a v : Word) : (s.store a v).inPhase = s.inPhase := rfl
@[simp] theorem State.store_input (a v : Word) : (s.store a v).input = s.input := rfl
@[simp] theorem State.store_output (a v : Word) : (s.store a v).output = s.output := rfl
@[simp] theorem State.store_polls (a v : Word) : (s.store a v).polls = s.polls := rfl
@[simp] theorem State.store_regs (a v : Word) : (s.store a v).regs = s.regs := rfl
@[simp] theorem State.store_reg (a v : Word) (i : Reg) : (s.store a v).reg i = s.reg i := rfl

/-! ### `memWrite` -/

@[simp] theorem State.memWrite_pc (a v : Word) : (s.memWrite a v).pc = s.pc := rfl
@[simp] theorem State.memWrite_cond (a v : Word) : (s.memWrite a v).cond = s.cond := rfl
@[simp] theorem State.memWrite_mem (a v : Word) : (s.memWrite a v).mem = s.mem.write a v := rfl
@[simp] theorem State.memWrite_run (a v : Word) : (s.memWrite a v).run = s.run := rfl
@[simp] theorem State.memWrite_ir (a v : Word) : (s.memWrite a v).ir = s.ir := rfl
@[simp] theorem State.memWrite_inPhase (a v : Word) : (s.memWrite a v).inPhase = s.inPhase := rfl
@[simp] theorem State.memWrite_input (a v : Word) : (s.memWrite a v).input = s.input := rfl
@[simp] theorem State.memWrite_output (a v : Word) : (s.memWrite a v).output = s.output := rfl
@[simp] theorem State.memWrite_polls (a v : Word) : (s.memWrite a v).polls = s.polls := rfl
@[simp] theorem State.memWrite_regs (a v : Word) : (s.memWrite a v).regs = s.regs := rfl
@[simp] theorem State.memWrite_reg (a v : Word) (i : Reg) : (s.memWrite a v).reg i = s.reg i := rfl

/-! ### `setcc` -/

@[simp] theorem State.setcc_pc (v : Word) : (s.setcc v).pc = s.pc := rfl
@[simp] theorem State.setcc_cond (v : Word) : (s.setcc v).cond = flagOf v := rfl
@[simp] theorem State.setcc_mem (v : Word) : (s.setcc v).mem = s.mem := rfl
@[simp] theorem State.setcc_run (v : Word) : (s.setcc v).run = s.run := rfl
@[simp] theorem State.setcc_ir (v : Word) : (s.setcc v).ir = s.ir := rfl
@[simp] theorem State.setcc_inPhase (v : Word) : (s.setcc v).inPhase = s.inPhase := rfl
@[simp] theorem State.setcc_input (v : Word) : (s.setcc v).input = s.input := rfl
@[simp] theorem State.setcc_output (v : Word) : (s.setcc v).output = s.output := rfl
@[simp] theorem State.setcc_polls (v : Word) : (s.setcc v).polls = s.polls := rfl
@[simp] theorem State.setcc_regs (v : Word) : (s.setcc v).regs = s.regs := rfl
@[simp] theorem State.setcc_reg (v : Word) (i : Reg) : (s.setcc v).reg i = s.reg i := rfl

/-! ### `writeResult` -/

@[simp] theorem State.writeResult_pc (dr : Reg) (v : Word) : (s.writeResult dr v).pc = s.pc := rfl
@[simp] theorem State.writeResult_cond (dr : Reg) (v : Word) : (s.writeResult dr v).cond = flagOf v := rfl
@[simp] theorem State.writeResult_mem (dr : Reg) (v : Word) : (s.writeResult dr v).mem = s.mem := rfl
@[simp] theorem State.writeResult_run (dr : Reg) (v : Word) : (s.writeResult dr v).run = s.run := rfl
@[simp] theorem State.writeResult_ir (dr : Reg) (v : Word) : (s.writeResult dr v).ir = s.ir := rfl
@[simp] theorem State.writeResult_inPhase (dr : Reg) (v : Word) : (s.writeResult dr v).inPhase = s.inPhase := rfl
@[simp] theorem State.writeResult_input (dr : Reg) (v : Word) : (s.writeResult dr v).input = s.input := rfl
@[simp] theorem State.writeResult_output (dr : Reg) (v : Word) : (s.writeResult dr v).output = s.output := rfl
@[simp] theorem State.writeResult_polls (dr : Reg) (v : Word) : (s.writeResult dr v).polls = s.polls := rfl

/-! ### `putChar` -/

@[simp] theorem State.putChar_pc : (s.putChar).pc = s.pc := rfl
@[simp] theorem State.putChar_cond : (s.putChar).cond = s.cond := rfl
@[simp] theorem State.putChar_mem : (s.putChar).mem = s.mem := rfl
@[simp] theorem State.putChar_run : (s.putChar).run = s.run := rfl
@[simp] theorem State.putChar_ir : (s.putChar).ir = s.ir := rfl
@[simp] theorem State.putChar_inPhase : (s.putChar).inPhase = s.inPhase := rfl
@[simp] theorem State.putChar_input : (s.putChar).input = s.input := rfl
@[simp] theorem State.putChar_output : (s.putChar).output = s.output ++ [zext8 (lowByte (s.reg 0#3))] := rfl
@[simp] theorem State.putChar_polls : (s.putChar).polls = s.polls := rfl
@[simp] theorem State.putChar_regs : (s.putChar).regs = s.regs := rfl
@[simp] theorem State.putChar_reg (i : Reg) : (s.putChar).reg i = s.reg i := rfl

/-! ### `raiseIllegalOpcode` -/

@[simp] theorem State.raiseIllegalOpcode_pc : (s.raiseIllegalOpcode).pc = s.pc := rfl
@[simp] theorem State.raiseIllegalOpcode_cond : (s.raiseIllegalOpcode).cond = s.cond := rfl
@[simp] theorem State.raiseIllegalOpcode_mem : (s.raiseIllegalOpcode).mem = s.mem := rfl
@[simp] theorem State.raiseIllegalOpcode_run : (s.raiseIllegalOpcode).run = RunState.aborted := rfl
@[simp] theorem State.raiseIllegalOpcode_ir : (s.raiseIllegalOpcode).ir = s.ir := rfl
@[simp] theorem State.raiseIllegalOpcode_inPhase : (s.raiseIllegalOpcode).inPhase = s.inPhase := rfl
@[simp] theorem State.raiseIllegalOpcode_input : (s.raiseIllegalOpcode).input = s.input := rfl
@[simp] theorem State.raiseIllegalOpcode_output : (s.raiseIllegalOpcode).output = s.output := rfl
@[simp] theorem State.raiseIllegalOpcode_polls : (s.raiseIllegalOpcode).polls = s.polls := rfl
@[simp] theorem State.raiseIllegalOpcode_regs : (s.raiseIllegalOpcode).regs = s.regs := rfl
@[simp] theorem State.raiseIllegalOpcode_reg (i : Reg) : (s.raiseIllegalOpcode).reg i = s.reg i := rfl

/-! ### `haltRun` -/

@[simp] theorem State.haltRun_pc : (s.haltRun).pc = s.pc := rfl
@[simp] theorem State.haltRun_cond : (s.haltRun).cond = s.cond := rfl
@[simp] theorem State.haltRun_mem : (s.haltRun).mem = s.mem := rfl
@[simp] theorem State.haltRun_run : (s.haltRun).run = RunState.halted := rfl
@[simp] theorem State.haltRun_ir : (s.haltRun).ir = s.ir := rfl
@[simp] theorem State.haltRun_inPhase : (s.haltRun).inPhase = s.inPhase := rfl
@[simp] theorem State.haltRun_input : (s.haltRun).input = s.input := rfl
@[simp] theorem State.haltRun_output : (s.haltRun).output = s.output := rfl
@[simp] theorem State.haltRun_polls : (s.haltRun).polls = s.polls := rfl
@[simp] theorem State.haltRun_regs : (s.haltRun).regs = s.regs := rfl
@[simp] theorem State.haltRun_reg (i : Reg) : (s.haltRun).reg i = s.reg i := rfl

/-! ### `deliver` -/

@[simp] theorem State.deliver_pc (cs : List Byte) : (s.deliver cs).pc = s.pc := rfl
@[simp] theorem State.deliver_cond (cs : List Byte) : (s.deliver cs).cond = s.cond := rfl
@[simp] theorem State.deliver_mem (cs : List Byte) : (s.deliver cs).mem = s.mem := rfl
@[simp] theorem State.deliver_run (cs : List Byte) : (s.deliver cs).run = s.run := rfl
@[simp] theorem State.deliver_ir (cs : List Byte) : (s.deliver cs).ir = s.ir := rfl
@[simp] theorem State.deliver_inPhase (cs : List Byte) : (s.deliver cs).inPhase = s.inPhase := rfl
@[simp] theorem State.deliver_input (cs : List Byte) : (s.deliver cs).input = s.input.append cs := rfl
@[simp] theorem State.deliver_output (cs : List Byte) : (s.deliver cs).output = s.output := rfl
@[simp] theorem State.deliver_polls (cs : List Byte) : (s.deliver cs).polls = s.polls := rfl
@[simp] theorem State.deliver_regs (cs : List Byte) : (s.deliver cs).regs = s.regs := rfl
@[simp] theorem State.deliver_reg (cs : List Byte) (i : Reg) : (s.deliver cs).reg i = s.reg i := rfl

/-! ### Register access -/

/-- A register reads what was last written to it. -/
@[simp] theorem State.setReg_reg_self (r : Reg) (v : Word) : (s.setReg r v).reg r = v := by
  simp [State.reg, State.setReg]

/-- Writing one register leaves the others alone. -/
@[simp] theorem State.setReg_reg_ne {r i : Reg} (v : Word) (h : i ≠ r) : (s.setReg r v).reg i = s.reg i := by
  have : r.toNat ≠ i.toNat := fun e => h (BitVec.eq_of_toNat_eq e.symm)
  simp [State.reg, State.setReg, this]

@[simp] theorem State.writeResult_reg_self (dr : Reg) (v : Word) : (s.writeResult dr v).reg dr = v := by
  simp [State.writeResult]

@[simp] theorem State.writeResult_reg_ne {dr i : Reg} (v : Word) (h : i ≠ dr) :
    (s.writeResult dr v).reg i = s.reg i := by
  simp [State.writeResult, h]

end Sys2Proof.Machine
end

