-- ==== Sys2Proof/Laws/Memory.lean ====
section
/-! SUPPORT. The laws of raw memory: a byte and a word read back what was written, other places are left alone, and every
operation keeps the canonical form. The reading laws need no canonical form. -/

namespace Sys2Proof.Machine

/-! ### Bytes -/

theorem Memory.readByte_filter_self (m : Memory) (n : Nat) :
    Memory.readByte (m.filter fun c => c.1 != n) n = unlistedByte := by
  induction m with
  | nil => rfl
  | cons c rest ih =>
    by_cases h : c.1 = n
    · simp [h, ih]
    · simp [h, ih, Memory.readByte]

theorem Memory.readByte_filter_ne (m : Memory) {n k : Nat} (hk : k ≠ n) :
    Memory.readByte (m.filter fun c => c.1 != n) k = m.readByte k := by
  induction m with
  | nil => rfl
  | cons c rest ih =>
    by_cases h : c.1 = n
    · simp [h, ih, Memory.readByte, hk.symm]
    · simp [h, ih, Memory.readByte]

theorem Memory.readByte_insertCell_self (n : Nat) (b : Byte) (m : Memory) (h : ∀ c ∈ m, c.1 ≠ n) :
    (Memory.insertCell (n, b) m).readByte n = b := by
  induction m with
  | nil => simp [Memory.insertCell, Memory.readByte]
  | cons c rest ih =>
    have hc := h c (by simp)
    have ih' := ih fun d hd => h d (by simp [hd])
    simp only [Memory.insertCell]
    split <;> simp [Memory.readByte, hc, ih']

theorem Memory.readByte_insertCell_ne {n k : Nat} (b : Byte) (m : Memory) (hk : k ≠ n) :
    (Memory.insertCell (n, b) m).readByte k = m.readByte k := by
  induction m with
  | nil => simp [Memory.insertCell, Memory.readByte, hk.symm]
  | cons c rest ih =>
    simp only [Memory.insertCell]
    split <;> simp [Memory.readByte, hk.symm, ih]

/-- A byte reads what was last written to it. -/
@[simp] theorem Memory.readByte_writeByte_self (m : Memory) (n : Nat) (b : Byte) :
    (m.writeByte n b).readByte n = b := by
  unfold Memory.writeByte
  split
  · next h => rw [Memory.readByte_filter_self, h]
  · exact Memory.readByte_insertCell_self _ _ _ (by simp)

/-- Writing one byte leaves the others alone. -/
theorem Memory.readByte_writeByte_ne (m : Memory) {n k : Nat} (b : Byte) (hk : k ≠ n) :
    (m.writeByte n b).readByte k = m.readByte k := by
  unfold Memory.writeByte
  split
  · exact Memory.readByte_filter_ne m hk
  · rw [Memory.readByte_insertCell_ne _ _ hk, Memory.readByte_filter_ne m hk]

/-! ### Words -/

/-- Bytes outside the written word are left alone. -/
theorem Memory.readByte_write_ne (m : Memory) (a v : Word) {n : Nat} (h0 : n ≠ Memory.cellOf a)
    (h1 : n ≠ Memory.cellOf a + 1) : (m.write a v).readByte n = m.readByte n := by
  rw [Memory.write, Memory.readByte_writeByte_ne _ _ h1, Memory.readByte_writeByte_ne _ _ h0]

theorem wordOfBytes_high_low (v : Word) : wordOfBytes (highByte v) (lowByte v) = v := by
  apply BitVec.eq_of_getLsbD_eq
  intro i hi
  simp only [wordOfBytes, highByte, lowByte, field, BitVec.getLsbD_append, BitVec.getLsbD_extractLsb']
  by_cases h : i < 8
  · simp [h]
  · have : i - 8 < 8 := by omega
    simp [h, this, show 8 + (i - 8) = i by omega]

/-- A word reads what was last written to it. -/
@[simp] theorem Memory.read_write_self (m : Memory) (a v : Word) : (m.write a v).read a = v := by
  have h0 : (m.write a v).readByte (Memory.cellOf a) = highByte v := by
    rw [Memory.write, Memory.readByte_writeByte_ne _ _ (by omega), Memory.readByte_writeByte_self]
  have h1 : (m.write a v).readByte (Memory.cellOf a + 1) = lowByte v := by
    rw [Memory.write, Memory.readByte_writeByte_self]
  rw [Memory.read, h0, h1, wordOfBytes_high_low]

theorem Memory.cellOf_inj {a b : Word} (h : Memory.cellOf a = Memory.cellOf b) : a = b :=
  BitVec.eq_of_toNat_eq (by unfold Memory.cellOf at h; omega)

/-- Writing one word leaves the others alone. -/
theorem Memory.read_write_ne (m : Memory) {a b : Word} (v : Word) (h : b ≠ a) : (m.write a v).read b = m.read b := by
  have hne : Memory.cellOf b ≠ Memory.cellOf a := fun e => h (Memory.cellOf_inj e)
  unfold Memory.cellOf at hne
  rw [Memory.read, Memory.read, Memory.readByte_write_ne, Memory.readByte_write_ne] <;> unfold Memory.cellOf <;> omega

/-- Words read as before when every byte does. -/
theorem Memory.read_congr {m m' : Memory} (h : ∀ n, m'.readByte n = m.readByte n) (a : Word) : m'.read a = m.read a := by
  simp [Memory.read, h]

/-- Memory with nothing listed is zero (R40). -/
@[simp] theorem Memory.read_nil (a : Word) : Memory.read [] a = 0 := by
  simp [Memory.read, Memory.readByte, unlistedByte, wordOfBytes]

/-! ### The canonical form -/

theorem Memory.wf_cons {c : Host.Cell} {rest : Memory} :
    Memory.wf (c :: rest) = true ↔
      (∀ d ∈ rest, c.1 < d.1) ∧ c.1 < Memory.cells ∧ c.2 ≠ unlistedByte ∧ Memory.wf rest = true := by
  simp [Memory.wf, and_assoc]

theorem Memory.wf_filter (m : Memory) (n : Nat) (h : m.wf = true) : Memory.wf (m.filter fun c => c.1 != n) = true := by
  induction m with
  | nil => rfl
  | cons c rest ih =>
    obtain ⟨hlt, hc, hb, hr⟩ := Memory.wf_cons.1 h
    by_cases hn : c.1 = n
    · simpa [hn] using ih hr
    · simp only [List.filter_cons, bne_iff_ne, ne_eq, hn, not_false_eq_true, if_true]
      exact Memory.wf_cons.2 ⟨fun d hd => hlt d (List.mem_filter.1 hd).1, hc, hb, ih hr⟩

theorem Memory.mem_insertCell {cell d : Host.Cell} {m : Memory} (h : d ∈ Memory.insertCell cell m) : d = cell ∨ d ∈ m := by
  induction m with
  | nil => simpa [Memory.insertCell] using h
  | cons c rest ih =>
    simp only [Memory.insertCell] at h
    split at h
    · simpa using h
    · rcases List.mem_cons.1 h with h | h
      · simp [h]
      · rcases ih h with h | h <;> simp [h]

theorem Memory.wf_insertCell {n : Nat} {b : Byte} {m : Memory} (hn : n < Memory.cells) (hb : b ≠ unlistedByte)
    (hm : m.wf = true) (hne : ∀ c ∈ m, c.1 ≠ n) : Memory.wf (Memory.insertCell (n, b) m) = true := by
  induction m with
  | nil => exact Memory.wf_cons.2 ⟨by simp, hn, hb, rfl⟩
  | cons c rest ih =>
    obtain ⟨hlt, hc, hcb, hr⟩ := Memory.wf_cons.1 hm
    simp only [Memory.insertCell]
    split
    · next h =>
      refine Memory.wf_cons.2 ⟨fun d hd => ?_, hn, hb, hm⟩
      rcases List.mem_cons.1 hd with rfl | hd
      · exact h
      · exact lt_trans h (hlt d hd)
    · next h =>
      have hcn := hne c (by simp)
      refine Memory.wf_cons.2 ⟨fun d hd => ?_, hc, hcb, ih hr fun d hd => hne d (by simp [hd])⟩
      rcases Memory.mem_insertCell hd with rfl | hd
      · have : ¬ n < c.1 := h
        show c.1 < n
        omega
      · exact hlt d hd

/-- Writing a byte keeps the canonical form. -/
theorem Memory.wf_writeByte (m : Memory) {n : Nat} (b : Byte) (hn : n < Memory.cells) (h : m.wf = true) :
    (m.writeByte n b).wf = true := by
  unfold Memory.writeByte
  split
  · exact Memory.wf_filter m n h
  · next hb => exact Memory.wf_insertCell hn hb (Memory.wf_filter m n h) (by simp)

/-- Writing a word keeps the canonical form. -/
theorem Memory.wf_write (m : Memory) (a v : Word) (h : m.wf = true) : (m.write a v).wf = true := by
  have : a.toNat < 65536 := a.isLt
  refine Memory.wf_writeByte _ _ ?_ (Memory.wf_writeByte _ _ ?_ h) <;> unfold Memory.cellOf Memory.cells <;> omega

/-- Loading an image's words keeps the canonical form. -/
theorem loadWords_wf (m : Memory) (a : Word) (body : List Byte) (h : m.wf = true) : (loadWords m a body).wf = true := by
  induction m, a, body using loadWords.induct with
  | case1 m a hi lo rest ih => exact ih (Memory.wf_write _ _ _ h)
  | case2 | case3 => exact h

end Sys2Proof.Machine
end

