-- ==== Sys2Proof/Laws/Ops.lean ====
section
/-! SUPPORT. For each shared operation, what it can do, said once: the flag updater, the device primitives, the memory
primitives, the fetch and the two reads of a character. -/

namespace Sys2Proof.Machine

/-! ### Flags -/

/-- `flagOf` is one-hot (R34, R90). -/
theorem flagOf_oneHot (v : Word) : flagOf v = condNeg ∨ flagOf v = condZro ∨ flagOf v = condPos := by
  unfold flagOf; split <;> [simp; (split <;> simp)]

theorem flagOf_zero {v : Word} (h : v = 0) : flagOf v = condZro := by simp [flagOf, h]

theorem flagOf_negative {v : Word} (h : v ≠ 0) (hn : v.getLsbD 15 = true) : flagOf v = condNeg := by
  simp only [flagOf, hn, if_true]; exact if_neg h

theorem flagOf_positive {v : Word} (h : v ≠ 0) (hn : v.getLsbD 15 = false) : flagOf v = condPos := by
  simp only [flagOf, hn]; exact if_neg h

/-- `x[DR] <- v; setcc(v)` writes DR, sets COND from the value, and changes nothing else. -/
theorem State.writeResult_wrote (s : State) (dr : Reg) (v : Word) : WroteResult s (s.writeResult dr v) dr v where
  result := by simp
  zero h := by simpa using flagOf_zero h
  negative h hn := by simpa using flagOf_negative h hn
  positive h hn := by simpa using flagOf_positive h hn
  regs r h := by simp [h]
  pc := by simp
  bytes n := by simp
  control := ⟨by simp, by simp, by simp⟩
  keyboard := ⟨by simp, by simp⟩
  output := by simp

/-! ### `SameCore` -/

theorem SameCore.refl (s : State) : SameCore s s :=
  ⟨rfl, rfl, rfl, rfl, rfl, rfl, fun _ _ _ => rfl, id⟩

theorem SameCore.trans {s t u : State} (h : SameCore s t) (k : SameCore t u) : SameCore s u :=
  ⟨k.regs.trans h.regs, k.pc.trans h.pc, k.cond.trans h.cond, k.run.trans h.run, k.ir.trans h.ir,
    k.inPhase.trans h.inPhase, fun a h1 h2 => (k.words a h1 h2).trans (h.words a h1 h2), k.canonical ∘ h.canonical⟩

theorem SameCore.reg {s t : State} (h : SameCore s t) (r : Reg) : t.reg r = s.reg r := by
  simp [State.reg, h.regs]

/-- A write to the output touches nothing else. -/
theorem State.outWrite_sameCore (s : State) (c : Word) : SameCore s (s.outWrite c) :=
  ⟨rfl, rfl, rfl, rfl, rfl, rfl, fun _ _ _ => rfl, id⟩

/-- A sequence is appended to the output, and nothing else changes (R13). -/
theorem State.outWriteAll_eq (s : State) (cs : List Word) : s.outWriteAll cs = { s with output := s.output ++ cs } := rfl

/-- A sequence is written one code at a time, its first code first (R13). -/
theorem State.outWriteAll_cons (s : State) (c : Word) (cs : List Word) :
    s.outWriteAll (c :: cs) = (s.outWrite c).outWriteAll cs := by
  simp [State.outWriteAll, State.outWrite]

theorem State.outWriteAll_nil (s : State) : s.outWriteAll [] = s := by simp [State.outWriteAll]

/-! ### Devices -/

/-- Everything `InPoll` can do (R172). -/
theorem State.inPoll_cases (s : State) :
    (∃ c rest, s.input.next = some (c, rest) ∧ Config.pollDraw s.polls = .ready ∧
        s.inPoll = (some c, s.countPoll.setInput rest)) ∨
      ((s.input.next = none ∨ Config.pollDraw s.polls = .notReady) ∧ s.inPoll = (none, s.countPoll)) := by
  unfold State.inPoll State.inPollDrawn
  cases hn : s.input.next with
  | none => right; cases Config.pollDraw s.polls <;> simp
  | some p =>
    cases hd : Config.pollDraw s.polls with
    | ready => left; exact ⟨p.1, p.2, rfl, rfl, rfl⟩
    | notReady => right; simp

/-- Everything `InRead` can do (R172, R173). -/
theorem State.inRead_cases (s : State) :
    (∃ c rest, s.input.next = some (c, rest) ∧ s.inRead = some (c, s.setInput rest)) ∨
      (s.input.next = none ∧ s.inRead = none) := by
  unfold State.inRead
  cases s.input.next with
  | none => exact .inr ⟨rfl, rfl⟩
  | some p => exact .inl ⟨p.1, p.2, rfl, rfl⟩

/-! ### Memory primitives -/

theorem State.store_sameCore_of_keyboard {s : State} {a : Word} (v : Word) (h : a = Config.kbsr ∨ a = Config.kbdr) :
    SameCore s (s.store a v) where
  regs := rfl
  pc := rfl
  cond := rfl
  run := rfl
  ir := rfl
  inPhase := rfl
  words b h1 h2 := Memory.read_write_ne _ _ (by rcases h with rfl | rfl <;> assumption)
  canonical := Memory.wf_write _ _ _

/-- Everything a poll can do (R43): a hit stores 0x8000 and the code and consumes the character, a miss clears KBSR. -/
theorem State.pollKeyboard_cases (s : State) :
    (∃ c rest, s.input.next = some (c, rest) ∧ Config.pollDraw s.polls = .ready ∧
        s.pollKeyboard = ((s.countPoll.setInput rest).store Config.kbsr 0x8000).store Config.kbdr (zext8 c)) ∨
      ((s.input.next = none ∨ Config.pollDraw s.polls = .notReady) ∧
        s.pollKeyboard = s.countPoll.store Config.kbsr 0x0000) := by
  rcases s.inPoll_cases with ⟨c, rest, hn, hd, hp⟩ | ⟨hn, hp⟩
  · exact .inl ⟨c, rest, hn, hd, by simp [State.pollKeyboard, hp]⟩
  · exact .inr ⟨hn, by simp [State.pollKeyboard, hp]⟩

/-- A poll touches only KBSR, KBDR, the input and the poll counter. -/
theorem State.pollKeyboard_sameCore (s : State) : SameCore s s.pollKeyboard := by
  have hc : SameCore s s.countPoll := ⟨rfl, rfl, rfl, rfl, rfl, rfl, fun _ _ _ => rfl, id⟩
  have hi : ∀ rest, SameCore s (s.countPoll.setInput rest) :=
    fun rest => ⟨rfl, rfl, rfl, rfl, rfl, rfl, fun _ _ _ => rfl, id⟩
  rcases s.pollKeyboard_cases with ⟨c, rest, -, -, h⟩ | ⟨-, h⟩ <;> rw [h]
  · exact ((hi rest).trans (State.store_sameCore_of_keyboard _ (.inl rfl))).trans
      (State.store_sameCore_of_keyboard _ (.inr rfl))
  · exact hc.trans (State.store_sameCore_of_keyboard _ (.inl rfl))

@[simp] theorem State.pollKeyboard_output (s : State) : s.pollKeyboard.output = s.output := by
  rcases s.pollKeyboard_cases with ⟨c, rest, -, -, h⟩ | ⟨-, h⟩ <;> simp [h]

/-- A read of any address but 0xFE00 returns the stored word with no side effect (R43). -/
theorem State.memRead_of_ne (s : State) {a : Word} (h : a ≠ Config.kbsr) : s.memRead a = (s.mem.read a, s) := by
  simp [State.memRead, h]

/-- A read of 0xFE00 polls and returns the word the poll stored (R43). -/
theorem State.memRead_kbsr (s : State) :
    s.memRead Config.kbsr = (s.pollKeyboard.mem.read Config.kbsr, s.pollKeyboard) := by
  simp [State.memRead]

/-- The state after any read: everything but KBSR, KBDR, the input and the poll counter is as before. -/
theorem State.memRead_sameCore (s : State) (a : Word) : SameCore s (s.memRead a).2 := by
  by_cases h : a = Config.kbsr
  · rw [h, State.memRead_kbsr]; exact s.pollKeyboard_sameCore
  · rw [State.memRead_of_ne s h]; exact .refl s

@[simp] theorem State.memRead_output (s : State) (a : Word) : (s.memRead a).2.output = s.output := by
  by_cases h : a = Config.kbsr
  · rw [h, State.memRead_kbsr]; simp
  · rw [State.memRead_of_ne s h]

/-- A store writes the word at its address and nothing else (R44). -/
theorem State.memWrite_stored (s : State) (a v : Word) : StoredWord s (s.memWrite a v) a v where
  word := by simp
  bytes n h0 h1 := Memory.readByte_write_ne _ _ _ h0 h1
  regs r := by simp
  pc := by simp
  cond := by simp
  control := ⟨by simp, by simp, by simp⟩
  keyboard := ⟨by simp, by simp⟩
  output := by simp

/-! ### Fetch -/

/-- The fetch: the read's word in `ir`, the PC one further, and otherwise the state after the read (R80). -/
theorem State.fetch_eq (s : State) :
    s.fetch = ((s.memRead s.pc).2.setIr (s.memRead s.pc).1).setPc (s.pc + 1) := rfl

/-- Away from 0xFE00 the fetch changes only `ir` and the PC. -/
theorem State.fetch_of_ne (s : State) (h : s.pc ≠ Config.kbsr) :
    s.fetch = (s.setIr (s.mem.read s.pc)).setPc (s.pc + 1) := by
  rw [State.fetch_eq, State.memRead_of_ne s h]

/-! ### Reading a character -/

/-- Everything the blocking read into R0 can do (R132, R173). -/
theorem State.readChar_cases (s : State) :
    (∃ c rest, s.input.next = some (c, rest) ∧ s.readChar = .next ((s.setInput rest).setReg 0 (zext8 c))) ∨
      (s.input.next = none ∧ s.readChar = .fault .waitingForInput) := by
  rcases s.inRead_cases with ⟨c, rest, hn, hr⟩ | ⟨hn, hr⟩
  · exact .inl ⟨c, rest, hn, by simp [State.readChar, hr]⟩
  · exact .inr ⟨hn, by simp [State.readChar, hr]⟩

end Sys2Proof.Machine
end

