-- ==== Sys2Proof/Laws/Trap.lean ====
section
/-! SUPPORT. The scans of PUTS and PUTSP: what a finished scan has done (43_trap.md R134, R136), and that how many reads it
was allowed does not matter; and the dispatcher by vector. -/

namespace Sys2Proof.Machine

/-! ### What is left of the input -/

theorem Input.next_eq_drop {i rest : Input} {c : Byte} (h : i.next = some (c, rest)) : rest = i.drop 1 := by
  simp [Input.drop, h]

theorem Input.drop_drop (k l : Nat) (i : Input) : (i.drop k).drop l = i.drop (k + l) := by
  induction k generalizing i with
  | zero => simp [Input.drop]
  | succ k ih =>
    rw [show k + 1 + l = (k + l) + 1 by omega]
    simp only [Input.drop]
    split
    · exact ih _
    · next h =>
      cases l with
      | zero => simp [Input.drop]
      | succ l => simp [Input.drop, h]

/-- A read takes at most one character, from the front. -/
theorem State.memRead_input (s : State) (a : Word) : ∃ k, (s.memRead a).2.input = s.input.drop k := by
  by_cases h : a = Config.kbsr
  · rw [h, State.memRead_kbsr]
    rcases s.pollKeyboard_cases with ⟨c, rest, hn, -, hp⟩ | ⟨-, hp⟩
    · exact ⟨1, by rw [hp]; simpa using Input.next_eq_drop hn⟩
    · exact ⟨0, by rw [hp]; rfl⟩
  · rw [State.memRead_of_ne s h]; exact ⟨0, rfl⟩

/-- Either the keyboard was polled, or memory is as before. -/
abbrev PolledOrSame (s t : State) : Prop := s.polls < t.polls ∨ (t.polls = s.polls ∧ t.mem = s.mem)

theorem PolledOrSame.trans {s t u : State} (h : PolledOrSame s t) (k : PolledOrSame t u) : PolledOrSame s u := by
  rcases h with h | ⟨h, hm⟩ <;> rcases k with k | ⟨k, km⟩
  · exact .inl (h.trans k)
  · exact .inl (by omega)
  · exact .inl (by omega)
  · exact .inr ⟨k.trans h, km.trans hm⟩

theorem State.memRead_polledOrSame (s : State) (a : Word) : PolledOrSame s (s.memRead a).2 := by
  by_cases h : a = Config.kbsr
  · left
    rw [h, State.memRead_kbsr]
    rcases s.pollKeyboard_cases with ⟨c, rest, -, -, hp⟩ | ⟨-, hp⟩ <;> rw [hp] <;> simp
  · rw [State.memRead_of_ne s h]; exact .inr ⟨rfl, rfl⟩

/-! ### Scans -/

/-- From `s` to `t` codes may have been written and the keyboard polled, and nothing else has changed. -/
structure Scanned (s t : State) : Prop where
  core : SameCore s t
  output : s.output <+: t.output
  input : ∃ k, t.input = s.input.drop k
  polled : PolledOrSame s t

theorem Scanned.trans {s t u : State} (h : Scanned s t) (k : Scanned t u) : Scanned s u := by
  obtain ⟨m, hm⟩ := h.input
  obtain ⟨n, hn⟩ := k.input
  exact ⟨h.core.trans k.core, h.output.trans k.output, ⟨m + n, by rw [hn, hm, Input.drop_drop]⟩,
    h.polled.trans k.polled⟩

theorem State.memRead_scanned (s : State) (a : Word) : Scanned s (s.memRead a).2 :=
  ⟨s.memRead_sameCore a, by simp, s.memRead_input a, s.memRead_polledOrSame a⟩

theorem State.outWrite_scanned (s : State) (c : Word) : Scanned s (s.outWrite c) :=
  ⟨s.outWrite_sameCore c, ⟨_, rfl⟩, ⟨0, rfl⟩, .inr ⟨rfl, rfl⟩⟩

theorem Scanned.refl (s : State) : Scanned s s := ⟨.refl s, ⟨[], by simp⟩, ⟨0, rfl⟩, .inr ⟨rfl, rfl⟩⟩

/-- What one word of PUTS can do. -/
theorem putsWord_scanned (a : Word) (s : State) : Scanned s (putsWord a s).2 := by
  have hr := s.memRead_scanned a
  dsimp only [putsWord]
  split
  · exact hr
  · exact hr.trans (State.outWrite_scanned _ _)

/-- What one word of PUTSP can do. -/
theorem putspWord_scanned (a : Word) (s : State) : Scanned s (putspWord a s).2 := by
  have hr := s.memRead_scanned a
  dsimp only [putspWord]
  split
  · exact hr
  · split
    · exact hr
    · split
      · exact hr.trans (State.outWrite_scanned _ _)
      · exact (hr.trans (State.outWrite_scanned _ _)).trans (State.outWrite_scanned _ _)

variable {one : Word → State → Bool × State}

/-- The scan with one more read allowed: the word at `a`, and the rest unless it was the last. -/
theorem scan_succ (n : Nat) (a : Word) (s : State) :
    scan one (n + 1) a s = if (one a s).1 then .next (one a s).2 else scan one n (a + 1) (one a s).2 := by
  rw [scan]
  cases h : one a s with
  | mk b t => cases b <;> rfl

/-- A finished scan has done what its words do. -/
theorem scan_next (hone : ∀ a s, Scanned s (one a s).2) {n : Nat} {a : Word} {s t : State}
    (h : scan one n a s = .next t) : Scanned s t := by
  induction n generalizing a s with
  | zero => simp [scan] at h
  | succ n ih =>
    rw [scan_succ] at h
    split at h
    · cases h; exact hone a s
    · exact (hone a s).trans (ih h)

/-- A scan never answers a refusal, and its one fault is that it is unterminated. -/
theorem scan_cases (n : Nat) (a : Word) (s : State) :
    (∃ t, scan one n a s = .next t) ∨ scan one n a s = .fault .unterminatedScan := by
  induction n generalizing a s with
  | zero => exact .inr rfl
  | succ n ih =>
    rw [scan_succ]
    split
    · exact .inl ⟨_, rfl⟩
    · exact ih _ _

/-- A scan that ends within `n` reads ends alike within more. -/
theorem scan_mono {n m : Nat} {a : Word} {s t : State} (h : scan one n a s = .next t) (hm : n ≤ m) :
    scan one m a s = .next t := by
  induction n generalizing a s m with
  | zero => simp [scan] at h
  | succ n ih =>
    obtain ⟨k, rfl⟩ : ∃ k, m = k + 1 := ⟨m - 1, by omega⟩
    rw [scan_succ] at h ⊢
    split
    · next hw => simpa [hw] using h
    · next hw => rw [if_neg hw] at h; exact ih h (by omega)

/-! ### The dispatcher -/

/-- What the dispatcher does on the six vectors (R131). -/
theorem trapDispatch_service (s : State) :
    trapDispatch 0x20 s = s.readChar ∧ trapDispatch 0x21 s = .next s.putChar ∧ trapDispatch 0x22 s = s.putString ∧
      trapDispatch 0x23 s = .next s.inPrompt ∧ trapDispatch 0x24 s = s.putPacked ∧
      trapDispatch 0x25 s = .next s.haltRun := by
  simp [trapDispatch]

/-- Every vector is one of the six or none of them. -/
theorem vector_cases (v : Byte) :
    v = 0x20 ∨ v = 0x21 ∨ v = 0x22 ∨ v = 0x23 ∨ v = 0x24 ∨ v = 0x25 ∨ isServiceVector v = false := by
  revert v; decide

/-- On any other vector the dispatcher does nothing (R139). -/
theorem trapDispatch_other {v : Byte} (s : State) (h : isServiceVector v = false) : trapDispatch v s = .next s := by
  have hv : v ≠ 0x20 ∧ v ≠ 0x21 ∧ v ≠ 0x22 ∧ v ≠ 0x23 ∧ v ≠ 0x24 ∧ v ≠ 0x25 := by
    refine ⟨?_, ?_, ?_, ?_, ?_, ?_⟩ <;> rintro rfl <;> revert h <;> decide
  obtain ⟨h0, h1, h2, h3, h4, h5⟩ := hv
  rw [trapDispatch, if_neg h0, if_neg h1, if_neg h2, if_neg h3, if_neg h4, if_neg h5]

end Sys2Proof.Machine
end

