-- ==== Sys2Proof/Laws/Exec.lean ====
section
/-! SUPPORT. What an instruction can do, said once: if `exec` answers a next state, it has one of nine shapes; and what a
step can do. Whole-machine facts are case splits over these. -/

namespace Sys2Proof.Machine

/-- If the blocking read answers a next state, it took the next character into R0. -/
theorem State.readChar_next {s t : State} (h : s.readChar = .next t) :
    ∃ c rest, s.input.next = some (c, rest) ∧ t = (s.setInput rest).setReg 0#3 (zext8 c) := by
  rcases s.readChar_cases with ⟨c, rest, hn, e⟩ | ⟨_, e⟩ <;> rw [e] at h <;> cases h
  exact ⟨c, rest, hn, rfl⟩

/-- From `s`, a read that may poll led to `u`. -/
structure ReadTo (s u : State) : Prop where
  core : SameCore s u
  output : u.output = s.output
  input : ∃ k, u.input = s.input.drop k
  polled : PolledOrSame s u

theorem ReadTo.refl (s : State) : ReadTo s s := ⟨.refl s, rfl, ⟨0, rfl⟩, .inr ⟨rfl, rfl⟩⟩

theorem ReadTo.trans {s t u : State} (h : ReadTo s t) (k : ReadTo t u) : ReadTo s u := by
  obtain ⟨m, hm⟩ := h.input
  obtain ⟨n, hn⟩ := k.input
  exact ⟨h.core.trans k.core, k.output.trans h.output, ⟨m + n, by rw [hn, hm, Input.drop_drop]⟩,
    h.polled.trans k.polled⟩

theorem State.memRead_readTo (s : State) (a : Word) : ReadTo s (s.memRead a).2 :=
  ⟨s.memRead_sameCore a, s.memRead_output a, s.memRead_input a, s.memRead_polledOrSame a⟩

/-- The shapes of an instruction's effect. -/
inductive ExecShape (i : Instr) (s t : State) : Prop where
  /-- A result was written to `dr` and classified, after reads that led to `u`. -/
  | result (u : State) (dr : Reg) (v : Word) (read : ReadTo s u) (e : t = u.writeResult dr v)
      (reg : i.writesReg = some dr) (cond : i.writesCond = true)
  /-- Only the PC was written. -/
  | goto (v : Word) (e : t = s.setPc v) (pc : i.writesPc = true) (cond : i.writesCond = false)
  /-- R7 and the PC were written. -/
  | call (v : Word) (e : t = (s.setReg 7#3 s.pc).setPc v) (pc : i.writesPc = true) (reg : i.writesReg = some 7#3)
      (cond : i.writesCond = false)
  /-- A word was stored, after reads that led to `u`. -/
  | store (u : State) (a v : Word) (read : ReadTo s u) (e : t = u.memWrite a v) (address : s.storeAddress i = some a)
      (cond : i.writesCond = false)
  /-- A character was taken into R0. -/
  | readChar (c : Byte) (rest : Input) (next : s.input.next = some (c, rest))
      (e : t = (s.setInput rest).setReg 0#3 (zext8 c)) (reg : i.writesReg = some 0#3) (cond : i.writesCond = false)
  /-- Codes may have been written and the keyboard polled, nothing else. -/
  | wrote (scanned : Scanned s t) (cond : i.writesCond = false)
  /-- The prompt was written and the read phase of IN began. -/
  | prompt (e : t = { s with output := s.output ++ Config.inPrompt, inPhase := true }) (of : i = .in_ ∨ i = .trap 0x23)
  /-- The run ended in HALTED. -/
  | halt (e : t = s.setRun .halted) (of : i = .halt ∨ i = .trap 0x25)
  /-- The run ended in ABORTED. -/
  | abort (e : t = s.setRun .aborted) (of : i = .illegal1000 ∨ i = .illegal1101)

theorem State.inPrompt_eq (s : State) :
    s.inPrompt = { s with output := s.output ++ Config.inPrompt, inPhase := true } := by
  rw [State.inPrompt, State.outWriteAll_eq]; rfl

theorem putChar_wrote {i : Instr} (s : State) (h : i.writesCond = false) : ExecShape i s s.putChar :=
  .wrote (State.outWrite_scanned _ _) h

theorem putString_wrote {i : Instr} {s t : State} (e : s.putString = .next t) (h : i.writesCond = false) :
    ExecShape i s t :=
  .wrote (scan_next putsWord_scanned e) h

theorem putPacked_wrote {i : Instr} {s t : State} (e : s.putPacked = .next t) (h : i.writesCond = false) :
    ExecShape i s t :=
  .wrote (scan_next putspWord_scanned e) h

theorem readChar_shape {i : Instr} {s t : State} (e : s.readChar = .next t) (h : i.writesReg = some 0#3)
    (hc : i.writesCond = false) : ExecShape i s t := by
  obtain ⟨c, rest, hn, rfl⟩ := State.readChar_next e
  exact .readChar c rest hn rfl h hc

theorem loadFrom_shape {i : Instr} {s u : State} {dr : Reg} {ea : Word} (h : ReadTo s u) (hr : i.writesReg = some dr)
    (hc : i.writesCond = true) : ExecShape i s (u.loadFrom dr ea) :=
  .result _ dr _ (h.trans (u.memRead_readTo ea)) rfl hr hc

/-- If an instruction answers a next state, it had one of the shapes. -/
theorem exec_shape {i : Instr} {s t : State} (h : exec i s = .next t) : ExecShape i s t := by
  have inj : ∀ {a b : State}, (Host.Outcome.next a : Result) = .next b → b = a := fun h => by cases h; rfl
  cases i with
  | addReg | addImm | andReg | andImm | not | lea => exact .result s _ _ (.refl s) (inj h) rfl rfl
  | ld | ldr => rw [inj h]; exact loadFrom_shape (.refl s) rfl rfl
  | ldi dr off9 => rw [inj h]; exact loadFrom_shape (s.memRead_readTo _) rfl rfl
  | br nzp off9 =>
    have ht := inj h
    split at ht
    · exact .goto _ ht rfl rfl
    · exact .goto s.pc ht rfl rfl
  | jmp | ret => exact .goto _ (inj h) rfl rfl
  | jsr | jsrr => exact .call _ (inj h) rfl rfl rfl
  | st | str => exact .store s _ _ (.refl s) (inj h) rfl rfl
  | sti sr off9 => exact .store _ _ _ (s.memRead_readTo _) (inj h) rfl rfl
  | getc => exact readChar_shape h rfl rfl
  | out => rw [inj h]; exact putChar_wrote s rfl
  | puts => exact putString_wrote h rfl
  | putsp => exact putPacked_wrote h rfl
  | in_ => exact .prompt ((inj h).trans s.inPrompt_eq) (.inl rfl)
  | halt => exact .halt (inj h) (.inl rfl)
  | illegal1000 => exact .abort (inj h) (.inl rfl)
  | illegal1101 => exact .abort (inj h) (.inr rfl)
  | trap v =>
    have hd : trapDispatch v s = .next t := h
    obtain ⟨h20, h21, h22, h23, h24, h25⟩ := trapDispatch_service s
    rcases vector_cases v with rfl | rfl | rfl | rfl | rfl | rfl | hv
    · exact readChar_shape (h20.symm.trans hd) rfl rfl
    · rw [inj (h21.symm.trans hd)]; exact putChar_wrote s rfl
    · exact putString_wrote (h22.symm.trans hd) rfl
    · exact .prompt ((inj (h23.symm.trans hd)).trans s.inPrompt_eq) (.inr rfl)
    · exact putPacked_wrote (h24.symm.trans hd) rfl
    · exact .halt (inj (h25.symm.trans hd)) (.inr rfl)
    · rw [inj ((trapDispatch_other s hv).symm.trans hd)]
      exact .wrote (.refl s) rfl

/-! ### The step -/

/-- In a running machine at an instruction boundary, a step is the decoded instruction at the fetched state (R80). -/
theorem step_boundary {s : State} (hr : s.run = .running) (hp : s.inPhase = false) :
    step s = exec (decodeWord s.fetch.ir) s.fetch := by
  simp [step, hr, hp]

/-- In phase 2 of IN, a step is the read (R80). -/
theorem step_inPhase {s : State} (hr : s.run = .running) (hp : s.inPhase = true) : step s = s.inReadPhase := by
  simp [step, hr, hp]

/-- Outside RUNNING there is no next state (R82, R183). -/
theorem step_terminal {s : State} (hr : s.run ≠ .running) (t : State) : step s ≠ .next t := by
  unfold step; cases h : s.run <;> simp_all

/-- If a step answers a next state, the machine was running and either finished IN's read or ran an instruction. -/
theorem step_next {s t : State} (h : step s = .next t) :
    s.run = .running ∧ ((s.inPhase = true ∧ s.inReadPhase = .next t) ∨
      (s.inPhase = false ∧ exec (decodeWord s.fetch.ir) s.fetch = .next t)) := by
  have hr : s.run = .running := by
    by_contra hr; exact step_terminal hr t h
  refine ⟨hr, ?_⟩
  cases hp : s.inPhase with
  | true => exact .inl ⟨rfl, (step_inPhase hr hp).symm.trans h⟩
  | false => exact .inr ⟨rfl, (step_boundary hr hp).symm.trans h⟩

/-- The fetch leaves the registers alone. -/
@[simp] theorem State.fetch_reg (s : State) (r : Reg) : s.fetch.reg r = s.reg r := by
  rw [State.fetch_eq]; simp [(s.memRead_sameCore s.pc).reg r]

@[simp] theorem State.fetch_pc (s : State) : s.fetch.pc = s.pc + 1 := rfl

@[simp] theorem State.fetch_ir (s : State) : s.fetch.ir = (s.memRead s.pc).1 := rfl

/-- A placed word is the next instruction run, at whatever state it is placed in. -/
theorem step_withFetchWord (s : State) (w : Word) :
    step (s.withFetchWord 16 w.toNat) =
      exec (decodeWord w) (((s.withFetchWord 16 w.toNat).setIr w).setPc ((s.withFetchWord 16 w.toNat).pc + 1)) := by
  have hpc : (s.withFetchWord 16 w.toNat).pc ≠ Config.kbsr := by
    unfold State.withFetchWord
    by_cases h : s.pc = Config.kbsr
    · simp only [h, if_true]; decide
    · simp [h]
  have hw : BitVec.ofNat 16 (w.toNat % 2 ^ 16) = w := by
    rw [Nat.mod_eq_of_lt w.isLt]; simp
  have hread : (s.withFetchWord 16 w.toNat).mem.read (s.withFetchWord 16 w.toNat).pc = w := by
    unfold State.withFetchWord; simp only [hw, Memory.read_write_self]
  rw [step_boundary rfl rfl, State.fetch_of_ne _ hpc, hread]; rfl

end Sys2Proof.Machine
end

