-- ==== Sys2Proof/Laws/PerInstr.lean ====
section
/-! SUPPORT. The family `OpcodeMap`: the word of every instruction has in bits 15:12 the opcode that 30_encoding.md R68
gives it. -/

namespace Sys2Proof.Laws

/-- The opcode map read from the instruction's side (R68). -/
def opcodeOf : Instr → Opcode
  | .addReg _ _ _ => .add
  | .addImm _ _ _ => .add
  | .andReg _ _ _ => .and
  | .andImm _ _ _ => .and
  | .not _ _ => .not
  | .br _ _ => .br
  | .jmp _ => .jmp
  | .ret => .jmp
  | .jsr _ => .jsr
  | .jsrr _ => .jsr
  | .ld _ _ => .ld
  | .ldi _ _ => .ldi
  | .ldr _ _ _ => .ldr
  | .lea _ _ => .lea
  | .st _ _ => .st
  | .sti _ _ => .sti
  | .str _ _ _ => .str
  | .trap _ => .trap
  | .getc => .trap
  | .out => .trap
  | .puts => .trap
  | .in_ => .trap
  | .putsp => .trap
  | .halt => .trap
  | .illegal1000 => .rti
  | .illegal1101 => .reserved

/-- The encoding of `i` has the opcode of `i` in bits 15:12. -/
def OpcodeMap.Statement (i : Instr) : Prop := Opcode.ofBits (opcodeField (encode i)) = opcodeOf i

section Formats

variable (op : BitVec 4) (r r1 r2 : Reg)

theorem opcodeField_encodeOpr : opcodeField (encodeOpr op r r1 r2) = op := by
  simp [opcodeField, encodeOpr, field_or, field_place_self, field_place_disjoint]

theorem opcodeField_encodeOpi (imm5 : BitVec 5) : opcodeField (encodeOpi op r r1 imm5) = op := by
  simp [opcodeField, encodeOpi, field_or, field_place_self, field_place_disjoint]

theorem opcodeField_encodePc9 (off9 : BitVec 9) : opcodeField (encodePc9 op r off9) = op := by
  simp [opcodeField, encodePc9, field_or, field_place_self, field_place_disjoint]

theorem opcodeField_encodeBase6 (off6 : BitVec 6) : opcodeField (encodeBase6 op r r1 off6) = op := by
  simp [opcodeField, encodeBase6, field_or, field_place_self, field_place_disjoint]

theorem opcodeField_encodeBase : opcodeField (encodeBase op r) = op := by
  simp [opcodeField, encodeBase, field_or, field_place_self, field_place_disjoint]

theorem opcodeField_encodeJsr (off11 : BitVec 11) : opcodeField (encodeJsr off11) = 0x4 := by
  simp [opcodeField, encodeJsr, field_or, field_place_self, field_place_disjoint]

theorem opcodeField_encodeTrap (v : Byte) : opcodeField (encodeTrap v) = 0xF := by
  simp [opcodeField, encodeTrap, field_or, field_place_self, field_place_disjoint]

end Formats

theorem OpcodeMap.addReg (dr : Reg) (sr1 : Reg) (sr2 : Reg) : OpcodeMap.Statement (.addReg dr sr1 sr2) := by
  simp [OpcodeMap.Statement, encode, opcodeOf, opcodeField_encodeOpr, Opcode.ofBits]

theorem OpcodeMap.addImm (dr : Reg) (sr1 : Reg) (imm5 : BitVec 5) : OpcodeMap.Statement (.addImm dr sr1 imm5) := by
  simp [OpcodeMap.Statement, encode, opcodeOf, opcodeField_encodeOpi, Opcode.ofBits]

theorem OpcodeMap.andReg (dr : Reg) (sr1 : Reg) (sr2 : Reg) : OpcodeMap.Statement (.andReg dr sr1 sr2) := by
  simp [OpcodeMap.Statement, encode, opcodeOf, opcodeField_encodeOpr, Opcode.ofBits]

theorem OpcodeMap.andImm (dr : Reg) (sr1 : Reg) (imm5 : BitVec 5) : OpcodeMap.Statement (.andImm dr sr1 imm5) := by
  simp [OpcodeMap.Statement, encode, opcodeOf, opcodeField_encodeOpi, Opcode.ofBits]

theorem OpcodeMap.not (dr : Reg) (sr : Reg) : OpcodeMap.Statement (.not dr sr) := by
  simp [OpcodeMap.Statement, encode, opcodeOf, opcodeField_encodeBase6, Opcode.ofBits]

theorem OpcodeMap.br (nzp : Reg) (off9 : BitVec 9) : OpcodeMap.Statement (.br nzp off9) := by
  simp [OpcodeMap.Statement, encode, opcodeOf, opcodeField_encodePc9, Opcode.ofBits]

theorem OpcodeMap.jmp (baseR : Reg) : OpcodeMap.Statement (.jmp baseR) := by
  simp [OpcodeMap.Statement, encode, opcodeOf, opcodeField_encodeBase, Opcode.ofBits]

theorem OpcodeMap.ret : OpcodeMap.Statement .ret := by
  simp [OpcodeMap.Statement, encode, opcodeOf, opcodeField_encodeBase, Opcode.ofBits]

theorem OpcodeMap.jsr (off11 : BitVec 11) : OpcodeMap.Statement (.jsr off11) := by
  simp [OpcodeMap.Statement, encode, opcodeOf, opcodeField_encodeJsr, Opcode.ofBits]

theorem OpcodeMap.jsrr (baseR : Reg) : OpcodeMap.Statement (.jsrr baseR) := by
  simp [OpcodeMap.Statement, encode, opcodeOf, opcodeField_encodeBase, Opcode.ofBits]

theorem OpcodeMap.ld (dr : Reg) (off9 : BitVec 9) : OpcodeMap.Statement (.ld dr off9) := by
  simp [OpcodeMap.Statement, encode, opcodeOf, opcodeField_encodePc9, Opcode.ofBits]

theorem OpcodeMap.ldi (dr : Reg) (off9 : BitVec 9) : OpcodeMap.Statement (.ldi dr off9) := by
  simp [OpcodeMap.Statement, encode, opcodeOf, opcodeField_encodePc9, Opcode.ofBits]

theorem OpcodeMap.ldr (dr : Reg) (baseR : Reg) (off6 : BitVec 6) : OpcodeMap.Statement (.ldr dr baseR off6) := by
  simp [OpcodeMap.Statement, encode, opcodeOf, opcodeField_encodeBase6, Opcode.ofBits]

theorem OpcodeMap.lea (dr : Reg) (off9 : BitVec 9) : OpcodeMap.Statement (.lea dr off9) := by
  simp [OpcodeMap.Statement, encode, opcodeOf, opcodeField_encodePc9, Opcode.ofBits]

theorem OpcodeMap.st (sr : Reg) (off9 : BitVec 9) : OpcodeMap.Statement (.st sr off9) := by
  simp [OpcodeMap.Statement, encode, opcodeOf, opcodeField_encodePc9, Opcode.ofBits]

theorem OpcodeMap.sti (sr : Reg) (off9 : BitVec 9) : OpcodeMap.Statement (.sti sr off9) := by
  simp [OpcodeMap.Statement, encode, opcodeOf, opcodeField_encodePc9, Opcode.ofBits]

theorem OpcodeMap.str (sr : Reg) (baseR : Reg) (off6 : BitVec 6) : OpcodeMap.Statement (.str sr baseR off6) := by
  simp [OpcodeMap.Statement, encode, opcodeOf, opcodeField_encodeBase6, Opcode.ofBits]

theorem OpcodeMap.trap (vect8 : BitVec 8) : OpcodeMap.Statement (.trap vect8) := by
  simp [OpcodeMap.Statement, encode, opcodeOf, opcodeField_encodeTrap, Opcode.ofBits]

theorem OpcodeMap.getc : OpcodeMap.Statement .getc := by
  simp [OpcodeMap.Statement, encode, opcodeOf, opcodeField_encodeTrap, Opcode.ofBits]

theorem OpcodeMap.out : OpcodeMap.Statement .out := by
  simp [OpcodeMap.Statement, encode, opcodeOf, opcodeField_encodeTrap, Opcode.ofBits]

theorem OpcodeMap.puts : OpcodeMap.Statement .puts := by
  simp [OpcodeMap.Statement, encode, opcodeOf, opcodeField_encodeTrap, Opcode.ofBits]

theorem OpcodeMap.in_ : OpcodeMap.Statement .in_ := by
  simp [OpcodeMap.Statement, encode, opcodeOf, opcodeField_encodeTrap, Opcode.ofBits]

theorem OpcodeMap.putsp : OpcodeMap.Statement .putsp := by
  simp [OpcodeMap.Statement, encode, opcodeOf, opcodeField_encodeTrap, Opcode.ofBits]

theorem OpcodeMap.halt : OpcodeMap.Statement .halt := by
  simp [OpcodeMap.Statement, encode, opcodeOf, opcodeField_encodeTrap, Opcode.ofBits]

theorem OpcodeMap.illegal1000 : OpcodeMap.Statement .illegal1000 := rfl

theorem OpcodeMap.illegal1101 : OpcodeMap.Statement .illegal1101 := rfl

end Sys2Proof.Laws
end

