-- ==== Sys2Proof/Tests/Slice0.lean ====
section
/-! SUPPORT. Tests. Expected values are the spec's: the rules' own examples and 95_test_vectors.md (the row's name stands
in each comment). After them, for each obligation with hypotheses, a witness that meets them. -/

open Sys2Proof Sys2Proof.Machine

namespace Sys2Proof.Tests

/-! ### Helpers -/

/-- Does the outcome hold a next state with `p`? -/
def nextSat (o : Result) (p : State → Bool) : Bool :=
  match o with
  | .next t => p t
  | .fault _ => false
  | .refused _ => false

/-- The machine after reset with `w` at the start address. -/
def placed (w : Nat) : State := State.reset.withFetchWord 16 w

/-- The same at address `a`. -/
def placedAt (a : Word) (w : Nat) : State := (State.reset.setPc a).withFetchWord 16 w

/-- Does one step from `s` reach a state with `p`? -/
def stepSat (s : State) (p : State → Bool) : Bool := nextSat (step s) p

/-! ### Well-formedness refuses the ill-formed spellings -/

theorem test_wf_refuses_jmp_r7 : (Instr.jmp 7).wf = false := by decide
theorem test_wf_refuses_trap_of_first_service : (Instr.trap 0x20).wf = false := by decide
theorem test_wf_refuses_trap_of_last_service : (Instr.trap 0x25).wf = false := by decide
theorem test_wf_accepts_beside_the_services : (Instr.trap 0x1F).wf = true ∧ (Instr.trap 0x26).wf = true := by decide

/-! ### Decoding: words written out from the format table (R63) -/

theorem test_decode_addReg : decodeWord 0b0001_001_010_0_00_011 = .addReg 1 2 3 := by decide
theorem test_decode_addReg_ignored : decodeWord 0b0001_001_010_0_11_011 = .addReg 1 2 3 := by decide
theorem test_decode_addImm : decodeWord 0b0001_001_001_1_11111 = .addImm 1 1 0x1F := by decide
theorem test_decode_andReg : decodeWord 0b0101_010_011_0_00_100 = .andReg 2 3 4 := by decide
theorem test_decode_andImm : decodeWord 0b0101_001_010_1_10000 = .andImm 1 2 0x10 := by decide
theorem test_decode_not : decodeWord 0b1001_100_101_111111 = .not 4 5 := by decide
theorem test_decode_not_ignored : decodeWord 0b1001_100_101_000000 = .not 4 5 := by decide
theorem test_decode_br : decodeWord 0b0000_001_111111101 = .br 0b001 0x1FD := by decide
theorem test_decode_jmp : decodeWord 0b1100_111_010_111111 = .jmp 2 := by decide
theorem test_decode_ret : decodeWord 0b1100_000_111_000000 = .ret := by decide
theorem test_decode_jsr : decodeWord 0b0100_1_10000000000 = .jsr 0x400 := by decide
theorem test_decode_jsrr : decodeWord 0b0100_0_11_011_000000 = .jsrr 3 := by decide
theorem test_decode_ld : decodeWord 0b0010_101_100000001 = .ld 5 0x101 := by decide
theorem test_decode_ldi : decodeWord 0b1010_001_000000001 = .ldi 1 1 := by decide
theorem test_decode_ldr : decodeWord 0b0110_010_011_111111 = .ldr 2 3 0x3F := by decide
theorem test_decode_lea : decodeWord 0b1110_000_000000100 = .lea 0 4 := by decide
theorem test_decode_st : decodeWord 0b0011_001_000000011 = .st 1 3 := by decide
theorem test_decode_sti : decodeWord 0b1011_010_000000000 = .sti 2 0 := by decide
theorem test_decode_str : decodeWord 0b0111_100_101_000010 = .str 4 5 2 := by decide
theorem test_decode_trap : decodeWord 0b1111_0000_00100110 = .trap 0x26 := by decide
theorem test_decode_getc : decodeWord 0b1111_0000_00100000 = .getc := by decide
theorem test_decode_out : decodeWord 0b1111_0000_00100001 = .out := by decide
theorem test_decode_puts : decodeWord 0b1111_0000_00100010 = .puts := by decide
theorem test_decode_in : decodeWord 0b1111_0000_00100011 = .in_ := by decide
theorem test_decode_putsp : decodeWord 0b1111_0000_00100100 = .putsp := by decide
theorem test_decode_halt_ignored : decodeWord 0b1111_1111_00100101 = .halt := by decide
theorem test_decode_illegal1000 : decodeWord 0b1000_111111111111 = .illegal1000 := by decide
theorem test_decode_illegal1101 : decodeWord 0b1101_000100100011 = .illegal1101 := by decide
theorem test_decode_one_byte_is_truncated : decode [0xF0] = .error .truncated := rfl
theorem test_encode_jsr_and_ret : encode (.jsr 5) = 0x4805 ∧ encode .ret = 0xC1C0 := by decide
theorem test_table_word : decodeTableWord 16 0x1283 = some (.addReg 1 2 3) ∧ decodeTableWord 17 0x1283 = none := by decide

/-! ### Sign extension (L1.3) -/

theorem test_sext : sext 0x10#5 = 0xFFF0 ∧ sext 0x1F#6 = 0x001F ∧ sext 0x100#9 = 0xFF00 ∧ sext 0x7FF#11 = 0xFFFF := by decide

/-! ### Operate (L2.1) -/

/-- O2: 0x7FFF + 0x0001. -/
theorem test_add_signed_overflow :
    stepSat (((placed 0x1283).setReg 2 0x7FFF).setReg 3 1)
      (fun t => t.reg 1 == 0x8000 && t.cond == condNeg && t.pc == 0x3001) = true := by decide
/-- O7: imm5 = 10000. -/
theorem test_add_immediate_minus_16 :
    stepSat ((placed 0x16F0).setReg 3 0x0010) (fun t => t.reg 3 == 0 && t.cond == condZro) = true := by decide
/-- O11. -/
theorem test_and_register :
    stepSat (((placed 0x54C4).setReg 3 0xF0F0).setReg 4 0x8F0F)
      (fun t => t.reg 2 == 0x8000 && t.cond == condNeg) = true := by decide
/-- O15: imm5 = -16 keeps the high bits. -/
theorem test_and_immediate_negative :
    stepSat ((placed 0x52B0).setReg 2 0xABCD) (fun t => t.reg 1 == 0xABC0 && t.cond == condNeg) = true := by decide
/-- O19: NOT with ir[5:0] = 000000. -/
theorem test_not_ignored_bits :
    stepSat ((placed 0x9940).setReg 5 0x00FF) (fun t => t.reg 4 == 0xFF00 && t.cond == condNeg) = true := by decide

/-! ### Control (L2.2) -/

/-- B1 and B2. -/
theorem test_br_taken : stepSat ((placedAt 0x3005 0x03FD).setCond condPos) (fun t => t.pc == 0x3003) = true := by decide
theorem test_br_not_taken : stepSat ((placedAt 0x3005 0x03FD).setCond condZro) (fun t => t.pc == 0x3006) = true := by decide
/-- B11. -/
theorem test_jmp_ignored_bits : stepSat ((placed 0xCEBF).setReg 2 0x4000) (fun t => t.pc == 0x4000) = true := by decide
/-- B10. -/
theorem test_ret : stepSat ((placed 0xC1C0).setReg 7 0x3004) (fun t => t.pc == 0x3004) = true := by decide
/-- B15 and B18. -/
theorem test_jsr_backward : stepSat (placed 0x4C00) (fun t => t.reg 7 == 0x3001 && t.pc == 0x2C01) = true := by decide
theorem test_jsr_link_wraps : stepSat (placedAt 0xFFFF 0x4802) (fun t => t.reg 7 == 0 && t.pc == 2) = true := by decide
/-- B16 and B17. -/
theorem test_jsrr_r3 :
    stepSat ((placedAt 0x3010 0x40C0).setReg 3 0x5000) (fun t => t.reg 7 == 0x3011 && t.pc == 0x5000) = true := by decide
theorem test_jsrr_r7 :
    stepSat ((placedAt 0x3010 0x41C0).setReg 7 0x5000) (fun t => t.reg 7 == 0x3011 && t.pc == 0x3011) = true := by decide

/-! ### Loads and stores (L2.3) -/

/-- M1. -/
theorem test_ld : stepSat ((placed 0x2002).store 0x3003 0x8001)
    (fun t => t.reg 0 == 0x8001 && t.cond == condNeg) = true := by decide
/-- M5 and M7: LDI of KBSR with no key clears a stored KBSR and leaves KBDR. -/
theorem test_ldi_kbsr_no_key :
    stepSat ((((placed 0xA201).store 0x3002 0xFE00).store 0xFE00 0x1234).store 0xFE02 0x0041)
      (fun t => t.reg 1 == 0 && t.cond == condZro && t.mem.read 0xFE00 == 0 && t.mem.read 0xFE02 == 0x41) = true := by decide
/-- M8: a pointer to KBDR makes no poll. -/
theorem test_ldi_kbdr_no_poll :
    stepSat ((((placed 0xA401).store 0x3002 0xFE02).store 0xFE02 0x0041).setInput (.cons 0x62 .done))
      (fun t => t.reg 2 == 0x41 && t.polls == 0 && t.input == .cons 0x62 .done) = true := by decide
/-- M10: DR = BaseR. -/
theorem test_ldr_same_register :
    stepSat (((placed 0x66C2).setReg 3 0x4000).store 0x4002 0x1111)
      (fun t => t.reg 3 == 0x1111 && t.cond == condPos) = true := by decide
/-- M11: the address wraps below 0. -/
theorem test_ldr_wraps :
    stepSat ((placed 0x62BF).store 0xFFFF 0x7777) (fun t => t.reg 1 == 0x7777) = true := by decide
/-- M14. -/
theorem test_lea_negative :
    stepSat (placedAt 0x8000 0xE1FF) (fun t => t.reg 0 == 0x8000 && t.cond == condNeg) = true := by decide
/-- M16. -/
theorem test_st_keeps_cond :
    stepSat (((placed 0x3203).setReg 1 0x1234).setCond condNeg)
      (fun t => t.mem.read 0x3004 == 0x1234 && t.cond == condNeg && t.pc == 0x3001) = true := by decide
/-- M17: a store to KBSR is a plain store. -/
theorem test_st_kbsr :
    stepSat ((placedAt 0xFDFF 0x3200).setReg 1 1)
      (fun t => t.mem.read 0xFE00 == 1 && t.polls == 0 && t.output == []) = true := by decide
/-- M18. -/
theorem test_sti :
    stepSat (((placed 0xB400).setReg 2 0xBEEF).store 0x3001 0x4000) (fun t => t.mem.read 0x4000 == 0xBEEF) = true := by decide
/-- M21: SR = BaseR. -/
theorem test_str_same_register :
    stepSat ((placed 0x7B60).setReg 5 0x4020) (fun t => t.mem.read 0x4000 == 0x4020) = true := by decide
/-- M6 and M3, for the draw the spec's row names: a poll that finds the character. -/
theorem test_poll_hit :
    ((State.reset.setInput (.cons 0x61 .done)).inPollDrawn .ready).1 = some 0x61 ∧
      ((State.reset.setInput (.cons 0x61 .done)).inPollDrawn .ready).2.input = .done := by decide

/-! ### Traps (L2.4) -/

/-- T1. -/
theorem test_getc :
    stepSat ((((placed 0xF020).setReg 0 0xFFFF).setCond condNeg).setInput (.cons 0x41 .done))
      (fun t => t.reg 0 == 0x41 && t.cond == condNeg && t.input == .done && t.output == []) = true := by decide
/-- T18. -/
theorem test_getc_stuck : step (placed 0xF020) = .fault .waitingForInput := rfl
/-- T2. -/
theorem test_out_low_byte : stepSat ((placed 0xF021).setReg 0 0x1241) (fun t => t.output == [0x41]) = true := by decide
/-- T7: PUTS wraps past 0xFFFF. -/
theorem test_puts_wraps :
    stepSat ((((placed 0xF022).setReg 0 0xFFFF).store 0xFFFF 0x41).store 0 0x42)
      (fun t => t.output == [0x41, 0x42] && t.reg 0 == 0xFFFF) = true := by decide
/-- T8: PUTS reaches 0xFE00 with no key. -/
theorem test_puts_reaches_kbsr :
    stepSat (((placed 0xF022).setReg 0 0xFDFF).store 0xFDFF 0x41)
      (fun t => t.output == [0x41] && t.mem.read 0xFE00 == 0 && t.polls == 1) = true := by decide
/-- T10, step 1. -/
theorem test_in_first_phase :
    stepSat (placed 0xF023) (fun t => t.inPhase && t.pc == 0x3001 && t.reg 0 == 0) = true := by decide
/-- T10, step 2. -/
theorem test_in_second_phase :
    stepSat (((placed 0xF023).setInPhase true).setInput (.cons 0x79 .done))
      (fun t => t.reg 0 == 0x79 && !t.inPhase && t.pc == 0x3000 && t.input == .done) = true := by decide
/-- T11. -/
theorem test_putsp_zero_high_byte :
    stepSat (((((placed 0xF024).setReg 0 0x4000).store 0x4000 0x4948).store 0x4001 0x0021).store 0x4002 0x4242)
      (fun t => t.output == [0x48, 0x49, 0x21]) = true := by decide
/-- T12. -/
theorem test_putsp_zero_low_byte :
    stepSat (((placed 0xF024).setReg 0 0x4000).store 0x4000 0x4100) (fun t => t.output == []) = true := by decide
/-- T15 and L1.7. -/
theorem test_halt :
    stepSat (placed 0xFF25) (fun t => t.run == .halted && t.pc == 0x3001 && t.output == []) = true := by decide
/-- T16. -/
theorem test_trap_undefined_vector :
    stepSat (((placed 0xF026).setReg 0 5).setCond condNeg)
      (fun t => t.pc == 0x3001 && t.reg 0 == 5 && t.cond == condNeg && t.run == .running) = true := by decide

/-! ### Illegal opcodes and fetch (L2.5) -/

/-- X1 and X2. -/
theorem test_illegal1000 :
    stepSat ((placed 0x8000).setReg 1 1) (fun t => t.run == .aborted && t.pc == 0x3001 && t.reg 1 == 1) = true := by decide
theorem test_illegal1101 : stepSat (placed 0xD123) (fun t => t.run == .aborted && t.ir == 0xD123) = true := by decide
/-- X4: a fetch from 0xFE00 with no key reads 0. -/
theorem test_fetch_from_kbsr :
    stepSat ((State.reset.setPc 0xFE00).store 0xFE00 0x1234)
      (fun t => t.pc == 0xFE01 && t.mem.read 0xFE00 == 0 && t.run == .running) = true := by decide
/-- X5. -/
theorem test_no_step_when_halted : step (State.reset.setRun .halted) = .fault .halted := rfl

/-! ### Image load (L2.6) -/

/-- I2. -/
theorem test_boot_words :
    (State.boot (some [0x40, 0x00, 0x12, 0x34, 0xAB, 0xCD]) .done).mem.read 0x4001 = 0xABCD ∧
      (State.boot (some [0x40, 0x00, 0x12, 0x34, 0xAB, 0xCD]) .done).pc = 0x3000 := by decide
/-- I3: the empty image is the plain reset. -/
theorem test_boot_empty_is_reset : State.boot (some [0x30, 0x00]) .done = State.reset := by decide
/-- I4, I6 and I8. -/
theorem test_boot_errors :
    (State.boot (some [0x30]) .done).run = .loadError ∧ (State.boot (some [0x30, 0x00, 0xF0]) .done).run = .loadError ∧
      (State.boot (some [0xFF, 0xFF, 0x12, 0x34, 0x56, 0x78]) .done).run = .loadError := by decide
/-- I7. -/
theorem test_boot_last_word :
    (State.boot (some [0xFF, 0xFF, 0x12, 0x34]) .done).mem.read 0xFFFF = 0x1234 := by decide

/-! ### Memory's canonical form -/

theorem test_write_zero_unlists : (Memory.write (Memory.write [] 0x3000 0x1234) 0x3000 0) = [] := by decide
theorem test_write_lists_only_nonzero_bytes : Memory.write [] 0x3000 0x0041 = [(0x6001, 0x41)] := by decide

/-! ### Witnesses: concrete values that meet each obligation's hypotheses -/

theorem witness_SignExtensionCopiesTopBit :
    (1 ≤ 5 ∧ 5 ≤ 16 ∧ 4 < 5 ∧ 5 ≤ 15 ∧ 15 < 16) ∧ 1 ≤ 16 ∧ 16 ≤ 16 := by decide
theorem witness_DecodeOfEncodeIsTheInstruction :
    (Instr.jmp 6).wf = true ∧ (Instr.trap 0xFF).wf = true ∧ (Instr.addImm 7 7 0x1F).wf = true := by decide
theorem witness_DecoderDropsOnlyIgnoredBits :
    (0x1283 : Word) &&& (decodeWord 0x1283).examinedBits = 0x129B &&& (decodeWord 0x1283).examinedBits := by decide
theorem witness_SetccClassifiesTheValue :
    (0x8000 : Word) ≠ 0 ∧ (0x8000 : Word).getLsbD 15 = true ∧ (0x7FFF : Word) ≠ 0 ∧ (0x7FFF : Word).getLsbD 15 = false := by
  decide
theorem witness_AddWritesTheSum :
    (0x1FDF : Word) &&& 0xF020 = 0x1000 ∧ (0x1FFF : Word) &&& 0xF020 = 0x1020 := by decide
theorem witness_AndWritesTheConjunction :
    (0x5FDF : Word) &&& 0xF020 = 0x5000 ∧ (0x5FFF : Word) &&& 0xF020 = 0x5020 := by decide
theorem witness_NotWritesTheComplement : (0x9FFF : Word) &&& 0xF000 = 0x9000 := by decide
theorem witness_BranchGoesToItsTarget : (0x0FFF : Word) &&& 0xF000 = 0x0000 := by decide
theorem witness_BranchNeverAndAlways : State.reset.CondOneHot := by decide
theorem witness_JumpAndReturnGoToTheRegister :
    (0xCFFF : Word) &&& 0xF000 = 0xC000 ∧ (0xC1C0 : Word) &&& 0xF1C0 = 0xC1C0 := by decide
theorem witness_JsrSavesTheReturnAddress : (0x4FFF : Word) &&& 0xF800 = 0x4800 := by decide
theorem witness_JsrrReadsTheBaseAfterTheLink : (0x47FF : Word) &&& 0xF800 = 0x4000 := by decide
theorem witness_CallStepSavesTheFollowingAddress :
    ((placed 0x4805).run = .running ∧ (placed 0x4805).inPhase = false ∧ decodeWord (placed 0x4805).fetch.ir = .jsr 5) ∧
      (placed 0x40C0).run = .running ∧ (placed 0x40C0).inPhase = false ∧
        decodeWord (placed 0x40C0).fetch.ir = .jsrr 3 ∧ (3 : Reg) ≠ 7#3 := by decide
theorem witness_MemReadPollsOnlyKbsr : (0xFE01 : Word) ≠ 0xFE00 := by decide
theorem witness_MemWriteIsAPlainStore : (0xFE02 : Word) ≠ 0xFE00 := by decide
theorem witness_DevicePrimitives :
    (State.reset.setInput (.cons 0x61 .done)).input.next = some (0x61, .done) ∧ State.reset.input.next = none := by decide
theorem witness_HostAppendsToTheInput :
    (State.reset.setInput (.cons 0x61 .done)).input.next = some (0x61, .done) ∧ State.reset.input.next = none := by decide
theorem witness_LdLoadsTheWord : (0x2FFF : Word) &&& 0xF000 = 0x2000 := by decide
theorem witness_LdiLoadsThroughThePointer :
    (0xAFFF : Word) &&& 0xF000 = 0xA000 ∧ ∃ p s1 v s2,
      State.reset.memRead (State.reset.pc + (0 : BitVec 9).signExtend 16) = (p, s1) ∧ s1.memRead p = (v, s2) :=
  ⟨by decide, _, _, _, _, rfl, rfl⟩
theorem witness_LdrLoadsFromBasePlusOffset : (0x6FFF : Word) &&& 0xF000 = 0x6000 := by decide
theorem witness_LeaWritesTheAddress : (0xEFFF : Word) &&& 0xF000 = 0xE000 := by decide
theorem witness_StStoresTheRegister : (0x3FFF : Word) &&& 0xF000 = 0x3000 := by decide
theorem witness_StiStoresThroughThePointer :
    (0xBFFF : Word) &&& 0xF000 = 0xB000 ∧ ∃ p s1,
      State.reset.memRead (State.reset.pc + (0 : BitVec 9).signExtend 16) = (p, s1) := ⟨by decide, _, _, rfl⟩
theorem witness_StrStoresAtBasePlusOffset : (0x7FFF : Word) &&& 0xF000 = 0x7000 := by decide
theorem witness_StoreIsSeenByTheNextFetch :
    State.reset.pc + (0 : BitVec 9).signExtend 16 ≠ 0xFE00 ∧
      (State.reset.memRead (State.reset.pc + (0 : BitVec 9).signExtend 16)).1 ≠ 0xFE00 ∧
        State.reset.reg 5 + (0 : BitVec 6).signExtend 16 ≠ 0xFE00 := by decide
theorem witness_TrapDispatchesOnItsVector :
    (0xFF20 : Word) &&& 0xF0FF = 0xF020 ∧ (0xFF21 : Word) &&& 0xF0FF = 0xF021 ∧ (0xFF22 : Word) &&& 0xF0FF = 0xF022 ∧
      (0xFF23 : Word) &&& 0xF0FF = 0xF023 ∧ (0xFF24 : Word) &&& 0xF0FF = 0xF024 ∧ (0xFF25 : Word) &&& 0xF0FF = 0xF025 ∧
        (0xF01F : Word) &&& 0xF000 = 0xF000 ∧ (0xF01F : Word).extractLsb' 0 8 < 0x20#8 ∧
          (0xF026 : Word) &&& 0xF000 = 0xF000 ∧ 0x25#8 < (0xF026 : Word).extractLsb' 0 8 ∧
            (0x1F : Byte) < 0x20 ∧ (0x25 : Byte) < 0x26 := by decide
theorem witness_GetcReadsTheNextCharacter :
    (State.reset.setInput (.cons 0x41 .done)).input.next = some (0x41, .done) := by decide
theorem witness_OutWritesTheLowByte : (0xFF21 : Word) &&& 0xF0FF = 0xF021 := by decide

/-- "HI" at 0x4000, R0 = 0x4000 (L1.6). -/
def hiState : State := ((State.reset.setReg 0 0x4000).store 0x4000 0x48).store 0x4001 0x49

/-- One character right below KBSR (T8). -/
def belowKbsr : State := (State.reset.setReg 0 0xFDFF).store 0xFDFF 0x41

theorem witness_PutsWritesUpToTheZeroWord :
    ((∀ (k : Nat) (h : k < [0x48#16, 0x49#16].length), hiState.reg 0#3 + BitVec.ofNat 16 k ≠ 0xFE00 ∧
        hiState.mem.read (hiState.reg 0#3 + BitVec.ofNat 16 k) = [0x48#16, 0x49#16][k] ∧ [0x48#16, 0x49#16][k] ≠ 0) ∧
      hiState.reg 0#3 + BitVec.ofNat 16 2 ≠ 0xFE00 ∧ hiState.mem.read (hiState.reg 0#3 + BitVec.ofNat 16 2) = 0) ∧
    (∀ (k : Nat) (h : k < [0x41#16].length), belowKbsr.reg 0#3 + BitVec.ofNat 16 k ≠ 0xFE00 ∧
        belowKbsr.mem.read (belowKbsr.reg 0#3 + BitVec.ofNat 16 k) = [0x41#16][k] ∧ [0x41#16][k] ≠ 0) ∧
      belowKbsr.reg 0#3 + BitVec.ofNat 16 1 = 0xFE00 ∧ belowKbsr.input.next = none := by decide
theorem witness_PutsObeysItsLoop :
    (hiState.memRead (hiState.reg 0#3)).1 ≠ 0 ∧
      (State.reset.memRead (State.reset.reg 0#3)).1 = 0 := by decide

/-- PUTS completes on hiState (L1.6), so the loop ends there. -/
theorem witness_PutsCompletesExactlyWhenItsScanEnds :
    stepSat ((hiState.withFetchWord 16 0xF022)) (fun t => t.output == [0x48, 0x49]) = true := by decide

/-- "HI!" packed at 0x4000 (T11). -/
def packedState : State := ((State.reset.setReg 0 0x4000).store 0x4000 0x4948).store 0x4001 0x0021

theorem witness_PutspWritesPackedBytes :
    (∀ (k : Nat) (h : k < [0x4948#16].length), packedState.reg 0#3 + BitVec.ofNat 16 k ≠ 0xFE00 ∧
        packedState.mem.read (packedState.reg 0#3 + BitVec.ofNat 16 k) = [0x4948#16][k] ∧
        [0x4948#16][k].extractLsb' 0 8 ≠ 0#8 ∧ [0x4948#16][k].extractLsb' 8 8 ≠ 0#8) ∧
      packedState.reg 0#3 + BitVec.ofNat 16 1 ≠ 0xFE00 ∧
      packedState.mem.read (packedState.reg 0#3 + BitVec.ofNat 16 1) = 0x0021 ∧
      ((0x0021#16).extractLsb' 0 8 = 0#8 ∨ (0x0021#16).extractLsb' 8 8 = 0#8) := by decide
theorem witness_PutspObeysItsLoop :
    (∃ s1, packedState.memRead (packedState.reg 0#3) = (0x4948, s1)) ∧
      ∃ w s1, State.reset.memRead (State.reset.reg 0#3) = (w, s1) := ⟨⟨_, rfl⟩, _, _, rfl⟩
theorem witness_ScansEndOnFiniteInput : (State.reset.setInput (.cons 0x61 .done)).input.isFinite = true := by decide
theorem witness_InPromptsThenReads :
    ((State.reset.setInPhase true).setInput (.cons 0x79 .done)).run = .running ∧
      ((State.reset.setInPhase true).setInput (.cons 0x79 .done)).inPhase = true ∧
        ((State.reset.setInPhase true).setInput (.cons 0x79 .done)).input.next = some (0x79, .done) := by decide
theorem witness_WaitEndsWhenACharacterArrives :
    State.reset.input.next = none ∧ (State.reset.setInPhase true).run = .running ∧
      (State.reset.setInPhase true).inPhase = true ∧ (State.reset.setInPhase true).input.next = none := by decide
theorem witness_IllegalOpcodeAborts :
    ((placed 0x8000).run = .running ∧ (placed 0x8000).inPhase = false ∧
      ((placed 0x8000).memRead (placed 0x8000).pc).1.extractLsb' 12 4 = 0x8#4) ∧
    (placed 0xDFFF).run = .running ∧ (placed 0xDFFF).inPhase = false ∧
      ((placed 0xDFFF).memRead (placed 0xDFFF).pc).1.extractLsb' 12 4 = 0xD#4 := by decide
theorem witness_StepRunsTheDecodedInstruction :
    (∃ t, step State.reset = .next t) ∧
      ((State.reset.setInPhase true).run = .running ∧ (State.reset.setInPhase true).inPhase = true) ∧
      State.reset.run = .running ∧ State.reset.inPhase = false ∧
        ∃ w s1, State.reset.memRead State.reset.pc = (w, s1) := ⟨⟨_, rfl⟩, by decide, rfl, rfl, _, _, rfl⟩
theorem witness_TerminalStatesHaveNoStep :
    (State.reset.setRun .halted).run = .halted ∧ (State.reset.setRun .aborted).run = .aborted ∧
      (placed 0xF025).run = .running ∧ (placed 0xF025).inPhase = false ∧
        decodeWord ((placed 0xF025).memRead (placed 0xF025).pc).1 = .halt := by decide
theorem witness_OnlyHaltAndIllegalEndTheRun :
    (∃ t, step (placed 0xF025) = .next t) ∧ (∃ t, step (placed 0xD000) = .next t) ∧ ∃ t, step (placed 0x1283) = .next t :=
  ⟨⟨_, rfl⟩, ⟨_, rfl⟩, _, rfl⟩
theorem witness_InPhaseLastsOneStep :
    ((placed 0xF023).inPhase = false ∧ ∃ t, step (placed 0xF023) = .next t) ∧
      ((State.reset.setInPhase true).setInput (.cons 0x79 .done)).inPhase = true ∧
        ∃ t, step ((State.reset.setInPhase true).setInput (.cons 0x79 .done)) = .next t :=
  ⟨⟨rfl, _, rfl⟩, rfl, _, rfl⟩
theorem witness_RunningStepOnlyEverWaits :
    State.reset.run = .running ∧ State.reset.input.isFinite = true ∧ (State.reset.setInPhase true).inPhase = true ∧
      (decodeWord ((placed 0xF020).memRead (placed 0xF020).pc).1 = .getc ∧
        ((placed 0xF020).memRead (placed 0xF020).pc).2.input.next = none ∧ (placed 0xF020).inPhase = false) ∧
      ((State.reset.setInPhase true).setInput (.cons 0x79 .done)).input.isFinite = true := by decide
theorem witness_BootStartsAtTheFixedAddress :
    (∃ m, loadImage [0x30, 0x00, 0xF0, 0x25] = some m) ∧
      ([0x12, 0x34] : List Byte).length % 2 = 0 ∧
      ((0x2F#8 ++ 0xFF#8 : Word).toNat + ([0x12, 0x34] : List Byte).length / 2 ≤ 0x3000) ∧
      0x3000 < (0x30#8 ++ 0x01#8 : Word).toNat := ⟨⟨_, rfl⟩, by decide, by decide, by decide⟩
theorem witness_LoaderPlacesTheWords :
    ([0x12, 0x34] : List Byte).length % 2 = 0 ∧
      (0xFF#8 ++ 0xFF#8 : Word).toNat + ([0x12, 0x34] : List Byte).length / 2 ≤ 65536 ∧
      0 < ([0x12, 0x34] : List Byte).length / 2 ∧ (0xFFFE : Word).toNat < (0xFF#8 ++ 0xFF#8 : Word).toNat := by decide
theorem witness_LoadErrorExactlyWhenMalformed :
    (State.boot none .done).run = .loadError ∧ (State.boot (some [0x30, 0x00]) .done).run ≠ .loadError := by decide
theorem witness_BootMeetsTheInvariant : ∃ m, loadImage [0x30, 0x00, 0xF0, 0x25] = some m := ⟨_, rfl⟩
theorem witness_StepKeepsTheInvariant : State.reset.Inv ∧ ∃ t, step State.reset = .next t := ⟨by decide, _, rfl⟩
theorem witness_OnlyListedInstructionsWriteRegisters :
    ((∃ t, exec (.st 1 3) State.reset = .next t) ∧ (Instr.st 1 3).writesReg ≠ some 7 ∧ (Instr.st 1 3).writesCond = false ∧
      (Instr.st 1 3).writesPc = false) ∧
    ((State.reset.setInPhase true).setInput (.cons 0x79 .done)).inPhase = true ∧
      ∃ t, step ((State.reset.setInPhase true).setInput (.cons 0x79 .done)) = .next t :=
  ⟨⟨⟨_, rfl⟩, by decide, rfl, rfl⟩, rfl, _, rfl⟩
theorem witness_OnlyStoresAndPollsChangeMemory :
    (∃ t, exec (.st 1 3) State.reset = .next t ∧ t.polls = State.reset.polls) ∧ State.reset.storeAddress (.st 1 3) ≠ some 0xFE01 ∧
      (0xFE01 : Word) ≠ 0xFE00 ∧ (0xFE01 : Word) ≠ 0xFE02 := ⟨⟨_, rfl, rfl⟩, by decide, by decide, by decide⟩
theorem witness_OnlyBranchesReadCond :
    ((∃ t, exec (.lea 0 4) State.reset = .next t) ∧ (Instr.lea 0 4).writesCond = true) ∧
      ((∃ t, exec .out State.reset = .next t) ∧ Instr.out.writesCond = false) ∧
      ∀ nzp off9, Instr.puts ≠ .br nzp off9 := ⟨⟨⟨_, rfl⟩, rfl⟩, ⟨⟨_, rfl⟩, rfl⟩, by simp⟩
theorem witness_OutputGrowsAndInputIsConsumed : ∃ t, step ((placed 0xF021).setReg 0 0x48) = .next t := ⟨_, rfl⟩

end Sys2Proof.Tests
end

section
/-! PROOFS of the family 10_state.md: what a step makes of the run state (R27), which instructions write the registers,
COND and the PC (R22), and that only BR reads COND (R26). -/

/-! ### The decoder answers well-formed instructions -/

namespace Sys2Proof

theorem decodeJmp_wf (baseR : Reg) : (decodeJmp baseR).wf = true := by
  unfold decodeJmp
  split
  · rfl
  · next h => simpa [Instr.wf] using h

theorem decodeTrap_wf (v : Byte) : (decodeTrap v).wf = true := by
  revert v; decide

/-- Every word decodes to an instruction in its own spelling: never to `jmp 7`, nor to `trap` of a service's vector. -/
theorem decodeWord_wf (w : Word) : (decodeWord w).wf = true := by
  unfold decodeWord
  cases Opcode.ofBits (opcodeField w) with
  | jmp => exact decodeJmp_wf _
  | trap => exact decodeTrap_wf _
  | add | and | jsr => dsimp only; split <;> rfl
  | _ => rfl

/-- A service's vector is decoded to the service. -/
theorem decodeWord_ne_trap {v : Byte} (hv : isServiceVector v = true) (w : Word) : decodeWord w ≠ .trap v := by
  intro h
  have hwf := decodeWord_wf w
  simp [h, Instr.wf, hv] at hwf

end Sys2Proof

namespace Sys2Proof.Machine

/-! ### The run state -/

/-- An instruction leaves the run state alone, or it is a HALT or an illegal opcode. -/
theorem exec_run {i : Instr} {s t : State} (h : exec i s = .next t) :
    t.run = s.run ∨ (t.run = .halted ∧ (i = .halt ∨ i = .trap 0x25)) ∨
      (t.run = .aborted ∧ (i = .illegal1000 ∨ i = .illegal1101)) := by
  cases exec_shape h with
  | result u dr v read e => exact .inl (by simp [e, read.core.run])
  | goto v e => exact .inl (by simp [e])
  | call v e => exact .inl (by simp [e])
  | store u a v read e => exact .inl (by simp [e, read.core.run])
  | readChar c rest next e => exact .inl (by simp [e])
  | wrote scanned => exact .inl scanned.core.run
  | prompt e => exact .inl (by rw [e])
  | halt e of => exact .inr (.inl ⟨by simp [e], of⟩)
  | abort e of => exact .inr (.inr ⟨by simp [e], of⟩)

/-- From RUNNING, an instruction leads to HALTED exactly if it is HALT, in either spelling. -/
theorem exec_halted_iff {i : Instr} {s t : State} (hr : s.run = .running) (h : exec i s = .next t) :
    t.run = .halted ↔ i = .halt ∨ i = .trap 0x25 := by
  constructor
  · intro ht
    rcases exec_run h with e | ⟨-, hi⟩ | ⟨e, -⟩
    · simp [ht, hr] at e
    · exact hi
    · simp [ht] at e
  · rintro (rfl | rfl) <;> cases h <;> rfl

/-- From RUNNING, an instruction leads to ABORTED exactly if it is one of the illegal ones. -/
theorem exec_aborted_iff {i : Instr} {s t : State} (hr : s.run = .running) (h : exec i s = .next t) :
    t.run = .aborted ↔ i = .illegal1000 ∨ i = .illegal1101 := by
  constructor
  · intro ht
    rcases exec_run h with e | ⟨e, -⟩ | ⟨-, hi⟩
    · simp [ht, hr] at e
    · simp [ht] at e
    · exact hi
  · rintro (rfl | rfl) <;> cases h <;> rfl

/-- No instruction leads from RUNNING to LOAD_ERROR. -/
theorem exec_run_ne_loadError {i : Instr} {s t : State} (hr : s.run = .running) (h : exec i s = .next t) :
    t.run ≠ .loadError := by
  rcases exec_run h with e | ⟨e, -⟩ | ⟨e, -⟩ <;> simp [e, hr]

@[simp] theorem State.fetch_run (s : State) : s.fetch.run = s.run := (s.memRead_sameCore s.pc).run

/-- Phase 2 of IN takes the next character into R0 and clears `inPhase`. -/
theorem State.inReadPhase_next {s t : State} (h : s.inReadPhase = .next t) :
    ∃ c rest, s.input.next = some (c, rest) ∧ t = ((s.setInPhase false).setInput rest).setReg 0#3 (zext8 c) :=
  State.readChar_next h

/-- Settles O43: in phase 2 of IN the machine stays RUNNING; at a boundary the run state is what the decoded instruction
makes of RUNNING, and the decoder spells TRAP x25 as HALT. -/
theorem onlyHaltAndIllegalEndTheRun : Obligations.OnlyHaltAndIllegalEndTheRun := by
  intro s t h
  obtain ⟨hrun, ⟨hphase, hread⟩ | ⟨hphase, hexec⟩⟩ := step_next h
  · obtain ⟨c, rest, -, rfl⟩ := State.inReadPhase_next hread
    simp [hrun, hphase]
  · have hfetch : s.fetch.run = .running := s.fetch_run.trans hrun
    have hspell := decodeWord_ne_trap (v := 0x25) rfl (s.memRead s.pc).1
    refine ⟨hrun, exec_run_ne_loadError hfetch hexec, ?_, ?_⟩
    · simpa [hphase] using (exec_halted_iff hfetch hexec).trans (or_iff_left hspell)
    · simpa [hphase] using exec_aborted_iff hfetch hexec

/-! ### The table of write sites -/

/-- Every register the table does not list for the instruction is unchanged (R22). -/
theorem exec_reg_of_not_written {i : Instr} {s t : State} (h : exec i s = .next t) {r : Reg}
    (hr : i.writesReg ≠ some r) : t.reg r = s.reg r := by
  have ne : ∀ {d : Reg}, i.writesReg = some d → r ≠ d := fun hd e => hr (e ▸ hd)
  cases exec_shape h with
  | result u dr v read e reg => simp [e, ne reg, read.core.reg]
  | goto v e => simp [e]
  | call v e pc reg => simp [e, ne reg]
  | store u a v read e => simp [e, read.core.reg]
  | readChar c rest next e reg => simp [e, ne reg]
  | wrote scanned => exact scanned.core.reg r
  | prompt e => rw [e]; rfl
  | halt e => simp [e]
  | abort e => simp [e]

/-- COND is unchanged unless the table lists it for the instruction (R22). -/
theorem exec_cond_of_not_written {i : Instr} {s t : State} (h : exec i s = .next t) (hc : i.writesCond = false) :
    t.cond = s.cond := by
  cases exec_shape h with
  | result u dr v read e reg cond => simp [hc] at cond
  | goto v e => simp [e]
  | call v e => simp [e]
  | store u a v read e => simp [e, read.core.cond]
  | readChar c rest next e => simp [e]
  | wrote scanned => exact scanned.core.cond
  | prompt e => rw [e]
  | halt e => simp [e]
  | abort e => simp [e]

/-- The PC is unchanged unless the table lists it for the instruction (R22). -/
theorem exec_pc_of_not_written {i : Instr} {s t : State} (h : exec i s = .next t) (hp : i.writesPc = false) :
    t.pc = s.pc := by
  cases exec_shape h with
  | result u dr v read e => simp [e, read.core.pc]
  | goto v e pc => simp [hp] at pc
  | call v e pc => simp [hp] at pc
  | store u a v read e => simp [e, read.core.pc]
  | readChar c rest next e => simp [e]
  | wrote scanned => exact scanned.core.pc
  | prompt e => rw [e]
  | halt e => simp [e]
  | abort e => simp [e]

@[simp] theorem State.fetch_cond (s : State) : s.fetch.cond = s.cond := (s.memRead_sameCore s.pc).cond

/-- Settles O53, by the shapes of an instruction's effect, the read of the fetch, and the read of IN. -/
theorem onlyListedInstructionsWriteRegisters : Obligations.OnlyListedInstructionsWriteRegisters := by
  refine ⟨fun i s t h => ⟨fun r => exec_reg_of_not_written h, exec_cond_of_not_written h, exec_pc_of_not_written h⟩,
    fun s => ⟨s.fetch_reg, s.fetch_cond, s.fetch_pc⟩, fun s t hphase h => ?_⟩
  obtain ⟨-, ⟨-, hread⟩ | ⟨hboundary, -⟩⟩ := step_next h
  · obtain ⟨c, rest, -, rfl⟩ := State.inReadPhase_next hread
    exact ⟨fun r hr => by simp [hr], rfl, rfl⟩
  · simp [hphase] at hboundary

/-! ### COND is written from a result only -/

/-- An instruction that writes COND leaves there the classification of the value its DR then holds (R26, R90). -/
theorem exec_cond_of_written {i : Instr} {s t : State} (h : exec i s = .next t) (hc : i.writesCond = true) :
    ∃ dr, i.writesReg = some dr ∧ t.cond = flagOf (t.reg dr) := by
  cases exec_shape h with
  | result u dr v read e reg => exact ⟨dr, reg, by simp [e]⟩
  | goto v e pc cond => simp [hc] at cond
  | call v e pc reg cond => simp [hc] at cond
  | store u a v read e address cond => simp [hc] at cond
  | readChar c rest next e reg cond => simp [hc] at cond
  | wrote scanned cond => simp [hc] at cond
  | prompt e of => rcases of with rfl | rfl <;> simp [Instr.writesCond] at hc
  | halt e of => rcases of with rfl | rfl <;> simp [Instr.writesCond] at hc
  | abort e of => rcases of with rfl | rfl <;> simp [Instr.writesCond] at hc

/-! ### Which operations do not look at COND

Each operation below does from `s.setCond c` what it does from `s`, and leaves `c` in COND or overwrites it. -/

section SetCond

variable (s : State) (c : BitVec 3)

theorem State.pollKeyboard_setCond : (s.setCond c).pollKeyboard = s.pollKeyboard.setCond c := by
  unfold State.pollKeyboard State.inPoll State.inPollDrawn
  simp only [State.setCond_input, State.setCond_polls]
  cases s.input.next with
  | none => rfl
  | some p => cases Config.pollDraw s.polls <;> rfl

theorem State.memRead_setCond (a : Word) :
    (s.setCond c).memRead a = ((s.memRead a).1, (s.memRead a).2.setCond c) := by
  by_cases h : a = Config.kbsr
  · simp [h, State.memRead_kbsr, State.pollKeyboard_setCond]
  · simp [State.memRead_of_ne _ h]

/-- The load overwrites whatever COND held. -/
theorem State.loadFrom_setCond (dr : Reg) (ea : Word) : (s.setCond c).loadFrom dr ea = s.loadFrom dr ea := by
  unfold State.loadFrom
  rw [State.memRead_setCond]; rfl

theorem State.indirect_setCond (off9 : BitVec 9) :
    (s.setCond c).indirect off9 = ((s.indirect off9).1, (s.indirect off9).2.setCond c) :=
  s.memRead_setCond c _

theorem State.readChar_setCond : (s.setCond c).readChar = mapNext (·.setCond c) s.readChar := by
  unfold State.readChar State.inRead
  simp only [State.setCond_input]
  cases s.input.next <;> rfl

theorem putsWord_setCond (a : Word) :
    putsWord a (s.setCond c) = ((putsWord a s).1, (putsWord a s).2.setCond c) := by
  simp only [putsWord, State.memRead_setCond]
  split <;> rfl

theorem putspWord_setCond (a : Word) :
    putspWord a (s.setCond c) = ((putspWord a s).1, (putspWord a s).2.setCond c) := by
  simp only [putspWord, State.memRead_setCond]
  split
  · rfl
  · split
    · rfl
    · split <;> rfl

theorem scan_setCond {one : Word → State → Bool × State}
    (hone : ∀ a s, one a (s.setCond c) = ((one a s).1, (one a s).2.setCond c)) (n : Nat) (a : Word) :
    scan one n a (s.setCond c) = mapNext (·.setCond c) (scan one n a s) := by
  induction n generalizing a s with
  | zero => rfl
  | succ n ih =>
    simp only [scan_succ, hone]
    split
    · rfl
    · exact ih _ _

theorem State.putString_setCond : (s.setCond c).putString = mapNext (·.setCond c) s.putString :=
  scan_setCond s c (fun a s => putsWord_setCond s c a) _ _

theorem State.putPacked_setCond : (s.setCond c).putPacked = mapNext (·.setCond c) s.putPacked :=
  scan_setCond s c (fun a s => putspWord_setCond s c a) _ _

theorem trapDispatch_setCond (v : Byte) : trapDispatch v (s.setCond c) = mapNext (·.setCond c) (trapDispatch v s) := by
  rcases vector_cases v with rfl | rfl | rfl | rfl | rfl | rfl | hv
  · exact s.readChar_setCond c
  · rfl
  · exact s.putString_setCond c
  · rfl
  · exact s.putPacked_setCond c
  · rfl
  · simp only [trapDispatch_other _ hv]; rfl

/-! ### Only BR reads COND -/

/-- An instruction that writes COND does the same whatever COND held. -/
theorem exec_setCond_of_written {i : Instr} (hc : i.writesCond = true) : exec i (s.setCond c) = exec i s := by
  cases i with
  | addReg | addImm | andReg | andImm | not | lea => rfl
  | ld | ldr => exact congrArg Host.Outcome.next (s.loadFrom_setCond c _ _)
  | ldi dr off9 => simp only [exec, execLdi, State.indirect_setCond, State.loadFrom_setCond]
  | _ => cases hc

/-- An instruction that neither is BR nor writes COND does the same whatever COND holds, and leaves it there. -/
theorem exec_setCond_of_not_written {i : Instr} (hc : i.writesCond = false) (hbr : ∀ nzp off9, i ≠ .br nzp off9) :
    exec i (s.setCond c) = mapNext (·.setCond c) (exec i s) := by
  cases i with
  | br nzp off9 => exact absurd rfl (hbr nzp off9)
  | jmp | ret | jsr | jsrr | st | str | out | in_ | halt | illegal1000 | illegal1101 => rfl
  | sti sr off9 => simp only [exec, execSti, State.indirect_setCond]; rfl
  | trap v => exact trapDispatch_setCond s c v
  | getc => exact s.readChar_setCond c
  | puts => exact s.putString_setCond c
  | putsp => exact s.putPacked_setCond c
  | _ => cases hc

end SetCond

theorem mapNext_id (r : Result) : mapNext (fun t => t) r = r := by
  cases r <;> rfl

/-- Settles O55: the flags are the classification of the result, and no operation but BR looks at COND. -/
theorem onlyBranchesReadCond : Obligations.OnlyBranchesReadCond := by
  refine ⟨fun i s t => exec_cond_of_written, fun i s t => exec_cond_of_not_written, fun i s c hbr => ?_⟩
  cases hc : i.writesCond with
  | true => simpa [mapNext_id] using exec_setCond_of_written s c hc
  | false => simpa using exec_setCond_of_not_written s c hc hbr

end Sys2Proof.Machine
end

section
/-! PROOFS of the family 20_memory.md: what a write to memory does (R44). -/

namespace Sys2Proof.Machine

/-- Every word but the one at the address written reads as before, across the wrap of the address space too (R44). -/
theorem State.memWrite_read_ne (s : State) {a b : Word} (v : Word) (h : b ≠ a) :
    (s.memWrite a v).mem.read b = s.mem.read b := by
  rw [State.memWrite_mem, Memory.read_write_ne _ _ h]

/-- Settles O17: no case on the address is needed, for `MemWrite` does not treat KBSR and KBDR apart. -/
theorem memWriteIsAPlainStore : Obligations.MemWriteIsAPlainStore :=
  fun s a v => ⟨s.memWrite_stored a v, fun _ => s.memWrite_read_ne v⟩

end Sys2Proof.Machine
end

section
/-! PROOFS of the family 30_encoding.md: sign extension (R66), the total decoder (R62), and the step (R80, R82). -/

namespace Sys2Proof

/-! ### The opcode of a decoded word -/

/-- The opcode map gives each of the 16 values its own opcode (R68). -/
theorem Opcode.ofBits_injective {a b : BitVec 4} (h : Opcode.ofBits a = Opcode.ofBits b) : a = b := by
  revert a b; decide

theorem Opcode.ofBits_eq_rti {b : BitVec 4} : Opcode.ofBits b = .rti ↔ b = 0x8 := by
  revert b; decide

theorem Opcode.ofBits_eq_reserved {b : BitVec 4} : Opcode.ofBits b = .reserved ↔ b = 0xD := by
  revert b; decide

namespace Laws

/-- The whole family `OpcodeMap`: every instruction's word has the instruction's opcode in bits 15:12 (R68). -/
theorem ofBits_opcodeField_encode (i : Instr) : Opcode.ofBits (opcodeField (encode i)) = opcodeOf i := by
  cases i with
  | addReg dr sr1 sr2 => exact OpcodeMap.addReg dr sr1 sr2
  | addImm dr sr1 imm5 => exact OpcodeMap.addImm dr sr1 imm5
  | andReg dr sr1 sr2 => exact OpcodeMap.andReg dr sr1 sr2
  | andImm dr sr1 imm5 => exact OpcodeMap.andImm dr sr1 imm5
  | not dr sr => exact OpcodeMap.not dr sr
  | br nzp off9 => exact OpcodeMap.br nzp off9
  | jmp baseR => exact OpcodeMap.jmp baseR
  | ret => exact OpcodeMap.ret
  | jsr off11 => exact OpcodeMap.jsr off11
  | jsrr baseR => exact OpcodeMap.jsrr baseR
  | ld dr off9 => exact OpcodeMap.ld dr off9
  | ldi dr off9 => exact OpcodeMap.ldi dr off9
  | ldr dr baseR off6 => exact OpcodeMap.ldr dr baseR off6
  | lea dr off9 => exact OpcodeMap.lea dr off9
  | st sr off9 => exact OpcodeMap.st sr off9
  | sti sr off9 => exact OpcodeMap.sti sr off9
  | str sr baseR off6 => exact OpcodeMap.str sr baseR off6
  | trap vect8 => exact OpcodeMap.trap vect8
  | getc => exact OpcodeMap.getc
  | out => exact OpcodeMap.out
  | puts => exact OpcodeMap.puts
  | in_ => exact OpcodeMap.in_
  | putsp => exact OpcodeMap.putsp
  | halt => exact OpcodeMap.halt
  | illegal1000 => exact OpcodeMap.illegal1000
  | illegal1101 => exact OpcodeMap.illegal1101

theorem opcodeOf_decodeJmp (baseR : Reg) : opcodeOf (decodeJmp baseR) = .jmp := by
  unfold decodeJmp; split <;> rfl

theorem opcodeOf_decodeTrap (v : Byte) : opcodeOf (decodeTrap v) = .trap := by
  revert v; decide

/-- The decoder answers an instruction of the word's own opcode (R62). -/
theorem opcodeOf_decodeWord (w : Word) : opcodeOf (decodeWord w) = Opcode.ofBits (opcodeField w) := by
  unfold decodeWord
  cases Opcode.ofBits (opcodeField w) with
  | jmp => exact opcodeOf_decodeJmp _
  | trap => exact opcodeOf_decodeTrap _
  | add | and | jsr => dsimp only; split <;> rfl
  | _ => rfl

theorem opcodeOf_eq_rti {i : Instr} : opcodeOf i = .rti ↔ i = .illegal1000 := by
  cases i <;> simp [opcodeOf]

theorem opcodeOf_eq_reserved {i : Instr} : opcodeOf i = .reserved ↔ i = .illegal1101 := by
  cases i <;> simp [opcodeOf]

end Laws

/-- Encoding what a word decodes to keeps the word's opcode. -/
theorem opcodeField_encode_decodeWord (w : Word) : opcodeField (encode (decodeWord w)) = opcodeField w :=
  Opcode.ofBits_injective
    ((Laws.ofBits_opcodeField_encode (decodeWord w)).trans (Laws.opcodeOf_decodeWord w))

theorem decodeWord_eq_illegal1000 {w : Word} : decodeWord w = .illegal1000 ↔ opcodeField w = 0x8 := by
  rw [← Laws.opcodeOf_eq_rti, Laws.opcodeOf_decodeWord, Opcode.ofBits_eq_rti]

theorem decodeWord_eq_illegal1101 {w : Word} : decodeWord w = .illegal1101 ↔ opcodeField w = 0xD := by
  rw [← Laws.opcodeOf_eq_reserved, Laws.opcodeOf_decodeWord, Opcode.ofBits_eq_reserved]

/-- Settles O3: the opcode of the word, of the instruction and of the encoding agree. -/
theorem everyWordDecodesToOneInstruction : Obligations.EveryWordDecodesToOneInstruction :=
  fun w => ⟨decodeWord_wf w, opcodeField_encode_decodeWord w, decodeWord_eq_illegal1000.symm,
    decodeWord_eq_illegal1101.symm⟩

end Sys2Proof

namespace Sys2Proof.Machine

/-! ### Sign extension -/

section SignExtension

variable {n : Nat} (f : BitVec n)

theorem sext_getLsbD_low {i : Nat} (hi : i < n) (h16 : n ≤ 16) : (sext f).getLsbD i = f.getLsbD i := by
  rw [sext, BitVec.getLsbD_signExtend]
  simp [hi, show i < 16 by omega]

theorem sext_getLsbD_high {i : Nat} (hi : n ≤ i) (h16 : i < 16) : (sext f).getLsbD i = f.getLsbD (n - 1) := by
  rw [sext, BitVec.getLsbD_signExtend, BitVec.msb_eq_getLsbD_last]
  simp [h16, Nat.not_lt.mpr hi]

/-- The number `sext` gives (00_scope.md R10): the field, with `65536 - 2 ^ n` added if its top bit is set. -/
theorem sext_toNat (h16 : n ≤ 16) :
    (sext f).toNat = if f.toNat < 2 ^ (n - 1) then f.toNat else f.toNat + 65536 - 2 ^ n := by
  have hpow : 2 ^ n ≤ 2 ^ 16 := Nat.pow_le_pow_right (by decide) h16
  have hwidth : (f.setWidth 16).toNat = f.toNat := BitVec.toNat_setWidth_of_le h16
  rw [sext, BitVec.toNat_signExtend, hwidth, BitVec.msb_eq_decide]
  by_cases htop : f.toNat < 2 ^ (n - 1)
  · simp [htop, Nat.not_le.mpr htop]
  · simp only [htop, Nat.not_lt.mp htop, decide_true, if_true, if_false]
    omega

end SignExtension

/-- Settles O1, clause by clause. -/
theorem signExtensionCopiesTopBit : Obligations.SignExtensionCopiesTopBit :=
  fun _ f _ h16 => ⟨fun _ hi => sext_getLsbD_low f hi h16, fun _ => sext_getLsbD_high f, sext_toNat f h16⟩

/-! ### The step -/

/-- What phase 2 of IN does where a character is pending (R135). -/
theorem State.inReadPhase_of_pending {s : State} {c : Byte} {rest : Input} (h : s.input.next = some (c, rest)) :
    s.inReadPhase = .next (((s.setInput rest).setReg 0#3 (zext8 c)).setInPhase false) := by
  rcases (s.setInPhase false).readChar_cases with ⟨c', rest', hnext, e⟩ | ⟨hnone, -⟩
  · cases h.symm.trans hnext
    exact e
  · simp [h] at hnone

/-- Phase 2 of IN leads nowhere while no character is pending (R173). -/
theorem State.inReadPhase_ne_next {s : State} (h : s.input.next = none) (t : State) : s.inReadPhase ≠ .next t := by
  intro ht
  obtain ⟨c, rest, hnext, -⟩ := State.inReadPhase_next ht
  simp [h] at hnext

/-- Settles O41: the three cases of R80 are the three of the step. -/
theorem stepRunsTheDecodedInstruction : Obligations.StepRunsTheDecodedInstruction := by
  refine ⟨fun s t h => (step_next h).1, fun s hrun hphase => ?_, fun s s1 w hrun hphase hread => ?_⟩
  · rw [step_inPhase hrun hphase]
    cases hnext : s.input.next with
    | none => exact State.inReadPhase_ne_next hnext
    | some p => exact State.inReadPhase_of_pending hnext
  · have hfetch : s.fetch = { s1 with ir := w, pc := s.pc + 1 } := by
      rw [State.fetch_eq, hread]; rfl
    rw [step_boundary hrun hphase, hfetch]

/-- Settles O42: HALT sets the run state in the step that fetches it, and outside RUNNING no step exists. -/
theorem terminalStatesHaveNoStep : Obligations.TerminalStatesHaveNoStep := by
  refine ⟨fun s t h => step_terminal ?_ t, fun s hrun hphase hword => ?_⟩
  · rcases h with h | h <;> simp [h]
  · refine ⟨s.fetch.haltRun, ?_, rfl, step_terminal (by simp)⟩
    rw [step_boundary hrun hphase, State.fetch_ir, hword]; rfl

end Sys2Proof.Machine
end

section
/-! PROOFS of the family 40_operate.md: which words are ADD, AND and NOT (R91 to R95), what these write, and the flag
updater (R90). -/

namespace Sys2Proof

/-! ### The words of the operate instructions -/

section OperateWords

variable {w : Word}

theorem decodeWord_add (h : opcodeField w = 0x1) :
    decodeWord w = if modeBit w then .addImm (drField w) (sr1Field w) (field w 0 5)
      else .addReg (drField w) (sr1Field w) (sr2Field w) := by
  rw [decodeWord, h]; rfl

theorem decodeWord_and (h : opcodeField w = 0x5) :
    decodeWord w = if modeBit w then .andImm (drField w) (sr1Field w) (field w 0 5)
      else .andReg (drField w) (sr1Field w) (sr2Field w) := by
  rw [decodeWord, h]; rfl

theorem decodeWord_not (h : opcodeField w = 0x9) : decodeWord w = .not (drField w) (sr1Field w) := by
  rw [decodeWord, h]; rfl

/-- The mode bit of a word known under a mask that covers bit 5. -/
theorem modeBit_of_mask {m v : Word} (h : w &&& m = v) (hm : modeBit m = true) : modeBit w = modeBit v :=
  getLsbD_of_mask h 5 hm

theorem decodeWord_addReg (h : w &&& 0xF020 = 0x1000) :
    decodeWord w = .addReg (drField w) (sr1Field w) (sr2Field w) := by
  have hmode : modeBit w = false := modeBit_of_mask h rfl
  simp [decodeWord_add (opcodeField_of_mask h rfl), hmode]

theorem decodeWord_addImm (h : w &&& 0xF020 = 0x1020) :
    decodeWord w = .addImm (drField w) (sr1Field w) (field w 0 5) := by
  have hmode : modeBit w = true := modeBit_of_mask h rfl
  simp [decodeWord_add (opcodeField_of_mask h rfl), hmode]

theorem decodeWord_andReg (h : w &&& 0xF020 = 0x5000) :
    decodeWord w = .andReg (drField w) (sr1Field w) (sr2Field w) := by
  have hmode : modeBit w = false := modeBit_of_mask h rfl
  simp [decodeWord_and (opcodeField_of_mask h rfl), hmode]

theorem decodeWord_andImm (h : w &&& 0xF020 = 0x5020) :
    decodeWord w = .andImm (drField w) (sr1Field w) (field w 0 5) := by
  have hmode : modeBit w = true := modeBit_of_mask h rfl
  simp [decodeWord_and (opcodeField_of_mask h rfl), hmode]

end OperateWords

end Sys2Proof

namespace Sys2Proof.Machine

/-! ### What the operate instructions write

Each reads its sources in the state it starts from and ends in `writeResult`, so `State.writeResult_wrote` gives the
flags and the frame of them all. -/

section OperateResults

variable (s : State) (dr sr1 sr2 : Reg) (imm5 : BitVec 5)

theorem exec_addReg : exec (.addReg dr sr1 sr2) s = .next (s.writeResult dr (s.reg sr1 + s.reg sr2)) := rfl

theorem exec_addImm : exec (.addImm dr sr1 imm5) s = .next (s.writeResult dr (s.reg sr1 + imm5.signExtend 16)) := rfl

theorem exec_andReg : exec (.andReg dr sr1 sr2) s = .next (s.writeResult dr (s.reg sr1 &&& s.reg sr2)) := rfl

theorem exec_andImm : exec (.andImm dr sr1 imm5) s = .next (s.writeResult dr (s.reg sr1 &&& imm5.signExtend 16)) := rfl

theorem exec_not : exec (.not dr sr1) s = .next (s.writeResult dr (~~~ s.reg sr1)) := rfl

end OperateResults

/-- An instruction that ends by writing the result `v` to `dr` completes with that effect. -/
theorem exec_wroteResult {i : Instr} {s : State} {dr : Reg} {v : Word} (h : exec i s = .next (s.writeResult dr v)) :
    ∃ t, exec i s = .next t ∧ WroteResult s t dr v :=
  ⟨_, h, s.writeResult_wrote dr v⟩

/-- Settles O7: the opcode and the mode bit choose the instruction, and either mode writes its sum as a result. -/
theorem addWritesTheSum : Obligations.AddWritesTheSum :=
  ⟨fun _ => decodeWord_addReg, fun _ => decodeWord_addImm,
    fun dr sr1 sr2 s => exec_wroteResult (exec_addReg s dr sr1 sr2),
    fun dr sr1 imm5 s => exec_wroteResult (exec_addImm s dr sr1 imm5)⟩

/-- Settles O8: as for ADD, with the conjunction as the result. -/
theorem andWritesTheConjunction : Obligations.AndWritesTheConjunction :=
  ⟨fun _ => decodeWord_andReg, fun _ => decodeWord_andImm,
    fun dr sr1 sr2 s => exec_wroteResult (exec_andReg s dr sr1 sr2),
    fun dr sr1 imm5 s => exec_wroteResult (exec_andImm s dr sr1 imm5)⟩

/-- Settles O9: the opcode alone makes a word a NOT, and its result is the complement. -/
theorem notWritesTheComplement : Obligations.NotWritesTheComplement :=
  ⟨fun _ h => decodeWord_not (opcodeField_of_mask h rfl),
    fun dr sr s => exec_wroteResult (exec_not s dr sr)⟩

/-! ### The flag updater -/

/-- `setcc` changes nothing but COND (R90). -/
theorem State.setcc_restore_cond (s : State) (v : Word) : { s.setcc v with cond := s.cond } = s := rfl

/-- Settles O6: COND becomes `flagOf v`, whose three cases are those of R90. -/
theorem setccClassifiesTheValue : Obligations.SetccClassifiesTheValue :=
  fun s v => ⟨flagOf_zero, flagOf_negative, flagOf_positive, flagOf_oneHot v, s.setcc_restore_cond v⟩

end Sys2Proof.Machine
end

section
/-! PROOFS of the family 41_control.md: which words are BR, JMP, RET and JSR (R100 to R103), and where these go. -/

namespace Sys2Proof

/-! ### The words of the control instructions -/

section ControlWords

variable {w : Word}

theorem decodeWord_br (h : opcodeField w = 0x0) : decodeWord w = .br (drField w) (field w 0 9) := by
  rw [decodeWord, h]; rfl

theorem decodeWord_jmp (h : opcodeField w = 0xC) : decodeWord w = decodeJmp (sr1Field w) := by
  rw [decodeWord, h]; rfl

/-- A jump whose BaseR is 7 is RET, whatever the ignored bits hold (R102). -/
theorem decodeWord_ret (h : w &&& 0xF1C0 = 0xC1C0) : decodeWord w = .ret := by
  have hbase : sr1Field w = 7#3 := field_of_mask h 6 3 rfl
  rw [decodeWord_jmp (opcodeField_of_mask h rfl), hbase]; rfl

theorem decodeWord_call (h : opcodeField w = 0x4) :
    decodeWord w = if longFlag w then .jsr (field w 0 11) else .jsrr (sr1Field w) := by
  rw [decodeWord, h]; rfl

/-- The flag that tells JSR from JSRR, in a word known under a mask that covers bit 11. -/
theorem longFlag_of_mask {m v : Word} (h : w &&& m = v) (hm : longFlag m = true) : longFlag w = longFlag v :=
  getLsbD_of_mask h 11 hm

theorem decodeWord_jsr (h : w &&& 0xF800 = 0x4800) : decodeWord w = .jsr (field w 0 11) := by
  have hlong : longFlag w = true := longFlag_of_mask h rfl
  simp [decodeWord_call (opcodeField_of_mask h rfl), hlong]

end ControlWords

end Sys2Proof

namespace Sys2Proof.Machine

/-! ### A jump and a call, each with its whole frame -/

theorem State.setPc_wentTo (s : State) (target : Word) : WentTo s (s.setPc target) target where
  pc := by simp
  regs r := by simp
  cond := by simp
  bytes n := by simp
  control := ⟨by simp, by simp, by simp⟩
  keyboard := ⟨by simp, by simp⟩
  output := by simp

/-- Linking in R7 and then jumping is a call (R103, R104). -/
theorem State.linkSetPc_called (s : State) (target : Word) :
    Called s ((s.setReg linkReg s.pc).setPc target) target where
  link := by simp [linkReg]
  pc := by simp
  regs r h := by simp [linkReg, h]
  cond := by simp
  bytes n := by simp
  control := ⟨by simp, by simp, by simp⟩
  keyboard := ⟨by simp, by simp⟩
  output := by simp

/-! ### Where the control instructions go -/

section ControlEffects

variable (s : State)

/-- BR is one write of the PC on both ways: not taken, it goes to the PC it already has (R100). -/
theorem exec_br (nzp : BitVec 3) (off9 : BitVec 9) :
    exec (.br nzp off9) s =
      .next (s.setPc (if nzp &&& s.cond ≠ 0 then s.pc + off9.signExtend 16 else s.pc)) := by
  rw [apply_ite s.setPc]; rfl

theorem exec_jmp (baseR : Reg) : exec (.jmp baseR) s = .next (s.setPc (s.reg baseR)) := rfl

theorem exec_ret : exec .ret s = .next (s.setPc (s.reg 7#3)) := rfl

theorem exec_jsr (off11 : BitVec 11) :
    exec (.jsr off11) s = .next ((s.setReg linkReg s.pc).setPc (s.pc + off11.signExtend 16)) := rfl

end ControlEffects

/-- An instruction that only writes `target` to the PC completes with that effect. -/
theorem exec_wentTo {i : Instr} {s : State} {target : Word} (h : exec i s = .next (s.setPc target)) :
    ∃ t, exec i s = .next t ∧ WentTo s t target :=
  ⟨_, h, s.setPc_wentTo target⟩

/-- An instruction that links and then writes `target` to the PC completes as a call. -/
theorem exec_called {i : Instr} {s : State} {target : Word}
    (h : exec i s = .next ((s.setReg linkReg s.pc).setPc target)) :
    ∃ t, exec i s = .next t ∧ Called s t target :=
  ⟨_, h, s.linkSetPc_called target⟩

/-- Settles O10: the opcode alone makes a word a BR, and taken or not BR is one write of the PC. -/
theorem branchGoesToItsTarget : Obligations.BranchGoesToItsTarget :=
  ⟨fun _ h => decodeWord_br (opcodeField_of_mask h rfl), fun nzp off9 s => exec_wentTo (exec_br s nzp off9)⟩

/-- Settles O12: the opcode and BaseR choose between JMP and RET, and either goes to its register's value. -/
theorem jumpAndReturnGoToTheRegister : Obligations.JumpAndReturnGoToTheRegister :=
  ⟨fun _ h => decodeWord_jmp (opcodeField_of_mask h rfl), fun _ => decodeWord_ret,
    fun baseR s => exec_wentTo (exec_jmp s baseR), fun s => exec_wentTo (exec_ret s)⟩

/-- Settles O13: the opcode and bit 11 make a word a JSR, whose effect is a call. -/
theorem jsrSavesTheReturnAddress : Obligations.JsrSavesTheReturnAddress :=
  ⟨fun _ => decodeWord_jsr, fun off11 s => exec_called (exec_jsr s off11)⟩

end Sys2Proof.Machine
end

section
/-! PROOFS of the family 42_loadstore.md: which words are the loads, the stores and LEA (R110 to R116), and what these
write. -/

namespace Sys2Proof

/-! ### The words of the load and store instructions: the opcode alone names each -/

section LoadStoreWords

variable {w : Word}

theorem decodeWord_ld (h : opcodeField w = 0x2) : decodeWord w = .ld (drField w) (field w 0 9) := by
  rw [decodeWord, h]; rfl

theorem decodeWord_ldi (h : opcodeField w = 0xA) : decodeWord w = .ldi (drField w) (field w 0 9) := by
  rw [decodeWord, h]; rfl

theorem decodeWord_ldr (h : opcodeField w = 0x6) : decodeWord w = .ldr (drField w) (sr1Field w) (field w 0 6) := by
  rw [decodeWord, h]; rfl

theorem decodeWord_lea (h : opcodeField w = 0xE) : decodeWord w = .lea (drField w) (field w 0 9) := by
  rw [decodeWord, h]; rfl

theorem decodeWord_st (h : opcodeField w = 0x3) : decodeWord w = .st (drField w) (field w 0 9) := by
  rw [decodeWord, h]; rfl

theorem decodeWord_sti (h : opcodeField w = 0xB) : decodeWord w = .sti (drField w) (field w 0 9) := by
  rw [decodeWord, h]; rfl

theorem decodeWord_str (h : opcodeField w = 0x7) : decodeWord w = .str (drField w) (sr1Field w) (field w 0 6) := by
  rw [decodeWord, h]; rfl

end LoadStoreWords

end Sys2Proof

namespace Sys2Proof.Machine

/-! ### What the load and store instructions do

The loads end in `loadFrom` and the stores in `memWrite`. Those through a pointer do so in the state after the pointer's
read, the others in the state they start from. -/

section LoadStoreEffects

variable (s : State) (r baseR : Reg) (off9 : BitVec 9) (off6 : BitVec 6)

theorem exec_ld : exec (.ld r off9) s = .next (s.loadFrom r (s.pc + off9.signExtend 16)) := rfl

theorem exec_ldi :
    exec (.ldi r off9) s =
      .next ((s.memRead (s.pc + off9.signExtend 16)).2.loadFrom r (s.memRead (s.pc + off9.signExtend 16)).1) := rfl

theorem exec_ldr : exec (.ldr r baseR off6) s = .next (s.loadFrom r (s.reg baseR + off6.signExtend 16)) := rfl

theorem exec_lea : exec (.lea r off9) s = .next (s.writeResult r (s.pc + off9.signExtend 16)) := rfl

theorem exec_st : exec (.st r off9) s = .next (s.memWrite (s.pc + off9.signExtend 16) (s.reg r)) := rfl

/-- STI takes SR after the pointer's read, which leaves the registers alone (R43, R115). -/
theorem exec_sti :
    exec (.sti r off9) s =
      .next ((s.memRead (s.pc + off9.signExtend 16)).2.memWrite
        (s.memRead (s.pc + off9.signExtend 16)).1 (s.reg r)) := by
  rw [← (s.memRead_sameCore (s.pc + off9.signExtend 16)).reg r]; rfl

theorem exec_str :
    exec (.str r baseR off6) s = .next (s.memWrite (s.reg baseR + off6.signExtend 16) (s.reg r)) := rfl

end LoadStoreEffects

/-- An instruction that ends by loading from `ea`, in a state `u` that its earlier reads led to, completes with the word
read there as its result, over the state after that read. -/
theorem exec_loaded {i : Instr} {s u : State} {dr : Reg} {ea : Word} (h : exec i s = .next (u.loadFrom dr ea)) :
    ∃ t, exec i s = .next t ∧ WroteResult (u.memRead ea).2 t dr (u.memRead ea).1 :=
  ⟨_, h, (u.memRead ea).2.writeResult_wrote dr (u.memRead ea).1⟩

/-- An instruction that ends by storing `v` at `a`, in a state `u` that its reads led to, completes with that effect. -/
theorem exec_stored {i : Instr} {s u : State} {a v : Word} (h : exec i s = .next (u.memWrite a v)) :
    ∃ t, exec i s = .next t ∧ StoredWord u t a v :=
  ⟨_, h, u.memWrite_stored a v⟩

/-- Settles O20: one read, and its word is the result. -/
theorem ldLoadsTheWord : Obligations.LdLoadsTheWord :=
  ⟨fun _ h => decodeWord_ld (opcodeField_of_mask h rfl), fun dr off9 s => exec_loaded (exec_ld s dr off9)⟩

/-- Settles O21: the second read starts from what the first one returned, its word and its state. -/
theorem ldiLoadsThroughThePointer : Obligations.LdiLoadsThroughThePointer := by
  refine ⟨fun _ h => decodeWord_ldi (opcodeField_of_mask h rfl), fun dr off9 s s1 s2 p v hpointer hdata => ?_⟩
  have hexec : exec (.ldi dr off9) s = .next (s1.loadFrom dr p) := by rw [exec_ldi, hpointer]
  simpa only [hdata] using exec_loaded hexec

/-- Settles O22: the base is read in the state before the load, so DR = BaseR is no case apart. -/
theorem ldrLoadsFromBasePlusOffset : Obligations.LdrLoadsFromBasePlusOffset :=
  ⟨fun _ h => decodeWord_ldr (opcodeField_of_mask h rfl),
    fun dr baseR off6 s => exec_loaded (exec_ldr s dr baseR off6)⟩

/-- Settles O23: the address itself is the result, so nothing is read. -/
theorem leaWritesTheAddress : Obligations.LeaWritesTheAddress :=
  ⟨fun _ h => decodeWord_lea (opcodeField_of_mask h rfl), fun dr off9 s => exec_wroteResult (exec_lea s dr off9)⟩

/-- Settles O24: ST is one store. -/
theorem stStoresTheRegister : Obligations.StStoresTheRegister :=
  ⟨fun _ h => decodeWord_st (opcodeField_of_mask h rfl), fun sr off9 s => exec_stored (exec_st s sr off9)⟩

/-- Settles O25: the store is made in the state after the pointer's read, with the SR from before it. -/
theorem stiStoresThroughThePointer : Obligations.StiStoresThroughThePointer := by
  refine ⟨fun _ h => decodeWord_sti (opcodeField_of_mask h rfl), fun sr off9 s s1 p hpointer => ?_⟩
  have hexec : exec (.sti sr off9) s = .next (s1.memWrite p (s.reg sr)) := by rw [exec_sti, hpointer]
  exact exec_stored hexec

/-- Settles O26: STR is one store, and SR and BaseR are read before it. -/
theorem strStoresAtBasePlusOffset : Obligations.StrStoresAtBasePlusOffset :=
  ⟨fun _ h => decodeWord_str (opcodeField_of_mask h rfl),
    fun sr baseR off6 s => exec_stored (exec_str s sr baseR off6)⟩

end Sys2Proof.Machine
end

section
/-! PROOFS of the family 43_trap.md: between the two phases of IN (R138). -/

namespace Sys2Proof.Machine

/-! ### Between the phases of IN -/

/-- An instruction leaves `inPhase` alone, or it is IN, in either spelling, and `inPhase` becomes true. -/
theorem exec_inPhase {i : Instr} {s t : State} (h : exec i s = .next t) :
    t.inPhase = s.inPhase ∨ (t.inPhase = true ∧ (i = .in_ ∨ i = .trap 0x23)) := by
  cases exec_shape h with
  | result u dr v read e => exact .inl (by simp [e, read.core.inPhase])
  | goto v e => exact .inl (by simp [e])
  | call v e => exact .inl (by simp [e])
  | store u a v read e => exact .inl (by simp [e, read.core.inPhase])
  | readChar c rest next e => exact .inl (by simp [e])
  | wrote scanned => exact .inl scanned.core.inPhase
  | prompt e of => exact .inr ⟨by rw [e], of⟩
  | halt e => exact .inl (by simp [e])
  | abort e => exact .inl (by simp [e])

/-- From a boundary, an instruction makes `inPhase` true exactly if it is IN, in either spelling. -/
theorem exec_inPhase_iff {i : Instr} {s t : State} (hphase : s.inPhase = false) (h : exec i s = .next t) :
    t.inPhase = true ↔ i = .in_ ∨ i = .trap 0x23 := by
  constructor
  · intro ht
    rcases exec_inPhase h with e | ⟨-, hi⟩
    · simp [ht, hphase] at e
    · exact hi
  · rintro (rfl | rfl) <;> cases h <;> rfl

@[simp] theorem State.fetch_inPhase (s : State) : s.fetch.inPhase = s.inPhase := (s.memRead_sameCore s.pc).inPhase

/-- Settles O44: at a boundary `inPhase` is what the decoded instruction makes of false, and the decoder spells TRAP x23
as IN; in phase 2 of IN the step is the read into R0. -/
theorem inPhaseLastsOneStep : Obligations.InPhaseLastsOneStep := by
  refine ⟨fun s t hphase h => ?_, fun s t hphase h => ?_⟩
  · obtain ⟨-, ⟨hmid, -⟩ | ⟨-, hexec⟩⟩ := step_next h
    · simp [hphase] at hmid
    · have hspell := decodeWord_ne_trap (v := 0x23) rfl (s.memRead s.pc).1
      exact (exec_inPhase_iff (s.fetch_inPhase.trans hphase) hexec).trans (or_iff_left hspell)
  · obtain ⟨hrun, -⟩ := step_next h
    obtain ⟨c, rest, -, rfl⟩ := State.inReadPhase_next ((step_inPhase hrun hphase).symm.trans h)
    exact ⟨rfl, rfl, rfl, fun r hr => by simp [hr], fun _ => rfl, rfl⟩

end Sys2Proof.Machine
end

section
/-! PROOFS of the family 44_reserved.md: what the illegal opcodes do, by themselves and as a step (R152, R161). -/

namespace Sys2Proof.Machine

/-! ### Raising IllegalOpcode -/

/-- The exception saves nothing and goes nowhere: it sets the run state (R161). -/
theorem State.raiseIllegalOpcode_runBecame (s : State) : RunBecame s s.raiseIllegalOpcode .aborted where
  run := by simp
  regs r := by simp
  pc := by simp
  cond := by simp
  bytes n := by simp
  ir := by simp
  inPhase := by simp
  keyboard := ⟨by simp, by simp⟩
  output := by simp

theorem exec_illegal1000 (s : State) : exec .illegal1000 s = .next s.raiseIllegalOpcode := rfl

theorem exec_illegal1101 (s : State) : exec .illegal1101 s = .next s.raiseIllegalOpcode := rfl

/-! ### What the fetch leaves to the body -/

@[simp] theorem State.fetch_output (s : State) : s.fetch.output = s.output := s.memRead_output s.pc

/-- Latching the word and incrementing the PC leave memory as the fetch's read left it (R80). -/
theorem State.fetch_bytes (s : State) : SameBytes (s.memRead s.pc).2 s.fetch := fun _ => rfl

/-- As for memory, with the input and the poll counter. -/
theorem State.fetch_keyboard (s : State) : SameInput (s.memRead s.pc).2 s.fetch := ⟨rfl, rfl⟩

/-! ### The step -/

/-- The fetch of a word of either illegal opcode makes the step the exception, raised after the fetch (R152). -/
theorem step_illegal {s : State} (hrun : s.run = .running) (hphase : s.inPhase = false)
    (hop : opcodeField (s.memRead s.pc).1 = 0x8 ∨ opcodeField (s.memRead s.pc).1 = 0xD) :
    step s = .next s.fetch.raiseIllegalOpcode := by
  rw [step_boundary hrun hphase, State.fetch_ir]
  rcases hop with h | h
  · rw [decodeWord_eq_illegal1000.mpr h, exec_illegal1000]
  · rw [decodeWord_eq_illegal1101.mpr h, exec_illegal1101]

/-- Settles O40: either illegal opcode raises the exception, which adds to the fetch only the run state ABORTED, and
outside RUNNING no step exists. -/
theorem illegalOpcodeAborts : Obligations.IllegalOpcodeAborts := by
  refine ⟨fun s => ⟨_, exec_illegal1000 s, s.raiseIllegalOpcode_runBecame⟩,
    fun s => ⟨_, exec_illegal1101 s, s.raiseIllegalOpcode_runBecame⟩, fun s hrun hphase hop => ?_⟩
  have raised := s.fetch.raiseIllegalOpcode_runBecame
  have hterminal : s.fetch.raiseIllegalOpcode.run ≠ .running := by simp
  exact ⟨s.fetch.raiseIllegalOpcode, step_illegal hrun hphase hop,
    raised.run, raised.pc, raised.ir,
    fun r => (raised.regs r).trans (s.fetch_reg r),
    raised.cond.trans s.fetch_cond,
    fun n => (raised.bytes n).trans (s.fetch_bytes n),
    raised.inPhase.trans s.fetch_inPhase,
    ⟨raised.keyboard.input.trans s.fetch_keyboard.input, raised.keyboard.polls.trans s.fetch_keyboard.polls⟩,
    raised.output.trans s.fetch_output,
    step_terminal hterminal⟩

end Sys2Proof.Machine
end

section
/-! PROOFS of the family 70_reset_and_hazards.md: where execution starts (R181). -/

namespace Sys2Proof.Machine

/-! ### The loader -/

/-- An image whose whole words fit below the end of memory loads (R182). -/
theorem loadImage_of_fits {hi lo : Byte} {body : List Byte} (heven : body.length % 2 = 0)
    (hfits : (hi ++ lo : Word).toNat + body.length / 2 ≤ 65536) :
    loadImage (hi :: lo :: body) = some (loadWords [] (hi ++ lo) body) :=
  if_pos ⟨heven, hfits⟩

/-- Words the image does not cover are left alone. -/
theorem loadWords_read_ne (m : Memory) (a : Word) (body : List Byte) {b : Word}
    (h : ∀ k < body.length / 2, b ≠ a + BitVec.ofNat 16 k) : (loadWords m a body).read b = m.read b := by
  induction m, a, body using loadWords.induct with
  | case1 m a hi lo rest ih =>
    have hlength : (hi :: lo :: rest).length / 2 = rest.length / 2 + 1 :=
      Nat.add_div_right rest.length two_pos
    have hhead : b ≠ a := by simpa using h 0 (by omega)
    have hrest : ∀ k < rest.length / 2, b ≠ a + 1 + BitVec.ofNat 16 k := fun k hk => by
      simpa [BitVec.ofNat_add, BitVec.add_assoc] using h (1 + k) (by omega)
    exact (ih hrest).trans (m.read_write_ne _ hhead)
  | case2 | case3 => rfl

/-- An image that fits without wrapping leaves every word below its origin, and from its end on, zero. -/
theorem loadWords_read_outside {a b : Word} {body : List Byte} (hfits : a.toNat + body.length / 2 ≤ 65536)
    (hout : b.toNat < a.toNat ∨ a.toNat + body.length / 2 ≤ b.toNat) : (loadWords [] a body).read b = 0 := by
  rw [loadWords_read_ne [] a body, Memory.read_nil]
  rintro k hk rfl
  have hnowrap : (a + BitVec.ofNat 16 k).toNat = a.toNat + k := by
    rw [BitVec.toNat_add, BitVec.toNat_ofNat]; omega
  omega

/-! ### The machine an image boots -/

section Boot

variable {bytes : List Byte} {m : Memory} (h : loadImage bytes = some m) (input : Input)
include h

/-- An image that loads adds only its memory and the input to the reset state (R180). -/
theorem State.boot_of_loadImage :
    State.boot (some bytes) input = { State.reset with mem := m, input := input } := by
  simp [State.boot, h]

theorem State.boot_pc : (State.boot (some bytes) input).pc = 0x3000 := by
  rw [State.boot_of_loadImage h]; rfl

theorem State.boot_run : (State.boot (some bytes) input).run = .running := by
  rw [State.boot_of_loadImage h]; rfl

theorem State.boot_inPhase : (State.boot (some bytes) input).inPhase = false := by
  rw [State.boot_of_loadImage h]; rfl

theorem State.boot_mem : (State.boot (some bytes) input).mem = m := by
  rw [State.boot_of_loadImage h]

/-- The first fetch is from 0x3000, not from KBSR, so it latches the loaded word without a poll (R181). -/
theorem State.boot_fetch_ir : (State.boot (some bytes) input).fetch.ir = m.read 0x3000 := by
  have hpc : (State.boot (some bytes) input).pc ≠ Config.kbsr := by rw [State.boot_pc h]; decide
  rw [State.fetch_ir, State.memRead_of_ne _ hpc, State.boot_pc h, State.boot_mem h]

end Boot

/-! ### The step on a zero word -/

/-- A BR whose condition field is empty is never taken (R100). -/
theorem exec_br_never (off9 : BitVec 9) (s : State) : exec (.br 0 off9) s = .next s := by
  rw [exec_br, if_neg (by simp)]; rfl

/-- The word 0x0000 is a BR with an empty condition field, so its step is the fetch. -/
theorem step_zeroWord {s : State} (hrun : s.run = .running) (hphase : s.inPhase = false) (hir : s.fetch.ir = 0) :
    step s = .next s.fetch := by
  rw [step_boundary hrun hphase, hir]
  exact exec_br_never 0 s.fetch

/-- Settles O47: the PC after a boot does not depend on the image, and a word outside the image is zero, whose step is
the fetch alone. -/
theorem bootStartsAtTheFixedAddress : Obligations.BootStartsAtTheFixedAddress := by
  refine ⟨fun bytes m input h => ⟨State.boot_pc h input, State.boot_run h input, State.boot_fetch_ir h input⟩,
    fun hi lo body input heven hfits hout => ?_⟩
  have h := loadImage_of_fits heven hfits
  have hir : (State.boot (some (hi :: lo :: body)) input).fetch.ir = 0 :=
    (State.boot_fetch_ir h input).trans (loadWords_read_outside hfits hout)
  have hrun := State.boot_run h input
  refine ⟨_, step_zeroWord hrun (State.boot_inPhase h input) hir, ?_, hir, State.fetch_reg _,
    (State.fetch_run _).trans hrun⟩
  rw [State.fetch_pc, State.boot_pc h]; rfl

end Sys2Proof.Machine
end

section
/-! PROOFS of the family other, the encoding: decoding an instruction's own word and bytes (R61 to R65), and the bits the
decoder ignores (R70). -/

namespace Sys2Proof

/-! ### The fields of the encoder's words -/

section EncodedFields

variable (op : BitVec 4) (r r1 r2 : Reg)

@[simp] theorem drField_encodeOpr : drField (encodeOpr op r r1 r2) = r := by
  simp [drField, encodeOpr, field_or, field_place_self, field_place_disjoint]

@[simp] theorem sr1Field_encodeOpr : sr1Field (encodeOpr op r r1 r2) = r1 := by
  simp [sr1Field, encodeOpr, field_or, field_place_self, field_place_disjoint]

@[simp] theorem sr2Field_encodeOpr : sr2Field (encodeOpr op r r1 r2) = r2 := by
  simp [sr2Field, encodeOpr, field_or, field_place_self, field_place_disjoint]

@[simp] theorem drField_encodeOpi (imm5 : BitVec 5) : drField (encodeOpi op r r1 imm5) = r := by
  simp [drField, encodeOpi, field_or, field_place_self, field_place_disjoint]

@[simp] theorem sr1Field_encodeOpi (imm5 : BitVec 5) : sr1Field (encodeOpi op r r1 imm5) = r1 := by
  simp [sr1Field, encodeOpi, field_or, field_place_self, field_place_disjoint]

theorem imm5_encodeOpi (imm5 : BitVec 5) : field (encodeOpi op r r1 imm5) 0 5 = imm5 := by
  simp [encodeOpi, field_or, field_place_self, field_place_disjoint]

@[simp] theorem drField_encodePc9 (off9 : BitVec 9) : drField (encodePc9 op r off9) = r := by
  simp [drField, encodePc9, field_or, field_place_self, field_place_disjoint]

theorem off9_encodePc9 (off9 : BitVec 9) : field (encodePc9 op r off9) 0 9 = off9 := by
  simp [encodePc9, field_or, field_place_self, field_place_disjoint]

@[simp] theorem drField_encodeBase6 (off6 : BitVec 6) : drField (encodeBase6 op r r1 off6) = r := by
  simp [drField, encodeBase6, field_or, field_place_self, field_place_disjoint]

@[simp] theorem sr1Field_encodeBase6 (off6 : BitVec 6) : sr1Field (encodeBase6 op r r1 off6) = r1 := by
  simp [sr1Field, encodeBase6, field_or, field_place_self, field_place_disjoint]

theorem off6_encodeBase6 (off6 : BitVec 6) : field (encodeBase6 op r r1 off6) 0 6 = off6 := by
  simp [encodeBase6, field_or, field_place_self, field_place_disjoint]

@[simp] theorem sr1Field_encodeBase : sr1Field (encodeBase op r) = r := by
  simp [sr1Field, encodeBase, field_or, field_place_self, field_place_disjoint]

theorem off11_encodeJsr (off11 : BitVec 11) : field (encodeJsr off11) 0 11 = off11 := by
  simp [encodeJsr, field_or, field_place_self, field_place_disjoint]

theorem vect8_encodeTrap (v : Byte) : field (encodeTrap v) 0 8 = v := by
  simp [encodeTrap, field_or, field_place_self, field_place_disjoint]

end EncodedFields

/-! ### Decoding the encoder's words, format by format -/

theorem decodeWord_trap {w : Word} (h : opcodeField w = 0xF) : decodeWord w = decodeTrap (field w 0 8) := by
  rw [decodeWord, h]; rfl

section DecodedFormats

open Laws

theorem decodeWord_encodePc9 {op : BitVec 4} {make : Reg → BitVec 9 → Instr}
    (h : ∀ {w : Word}, opcodeField w = op → decodeWord w = make (drField w) (field w 0 9)) (r : Reg) (off9 : BitVec 9) :
    decodeWord (encodePc9 op r off9) = make r off9 := by
  rw [h (opcodeField_encodePc9 ..), drField_encodePc9, off9_encodePc9]

theorem decodeWord_encodeBase6 {op : BitVec 4} {make : Reg → Reg → BitVec 6 → Instr}
    (h : ∀ {w : Word}, opcodeField w = op → decodeWord w = make (drField w) (sr1Field w) (field w 0 6)) (r r1 : Reg)
    (off6 : BitVec 6) : decodeWord (encodeBase6 op r r1 off6) = make r r1 off6 := by
  rw [h (opcodeField_encodeBase6 ..), drField_encodeBase6, sr1Field_encodeBase6, off6_encodeBase6]

/-- ADD and AND, register mode: the encoder leaves the mode bit clear. -/
theorem decodeWord_encodeOpr {op : BitVec 4} {imm : Reg → Reg → BitVec 5 → Instr} {make : Reg → Reg → Reg → Instr}
    (h : ∀ {w : Word}, opcodeField w = op → decodeWord w = if modeBit w then imm (drField w) (sr1Field w) (field w 0 5)
      else make (drField w) (sr1Field w) (sr2Field w)) (r r1 r2 : Reg) :
    decodeWord (encodeOpr op r r1 r2) = make r r1 r2 := by
  simp [h (opcodeField_encodeOpr ..), modeBit_encodeOpr]

/-- ADD and AND, immediate mode: the encoder sets the mode bit. -/
theorem decodeWord_encodeOpi {op : BitVec 4} {make : Reg → Reg → BitVec 5 → Instr} {reg : Reg → Reg → Reg → Instr}
    (h : ∀ {w : Word}, opcodeField w = op → decodeWord w = if modeBit w then make (drField w) (sr1Field w) (field w 0 5)
      else reg (drField w) (sr1Field w) (sr2Field w)) (r r1 : Reg) (imm5 : BitVec 5) :
    decodeWord (encodeOpi op r r1 imm5) = make r r1 imm5 := by
  rw [h (opcodeField_encodeOpi ..), if_pos (modeBit_encodeOpi ..), drField_encodeOpi, sr1Field_encodeOpi,
    imm5_encodeOpi]

theorem decodeWord_encodeJsr (off11 : BitVec 11) : decodeWord (encodeJsr off11) = .jsr off11 := by
  rw [decodeWord_call (opcodeField_encodeJsr off11), if_pos (longFlag_encodeJsr off11), off11_encodeJsr]

theorem decodeWord_encodeJsrr (baseR : Reg) : decodeWord (encodeBase 0x4 baseR) = .jsrr baseR := by
  rw [decodeWord_call (opcodeField_encodeBase 0x4 baseR), longFlag_encodeBase, sr1Field_encodeBase]; rfl

theorem decodeWord_encodeJmp (baseR : Reg) : decodeWord (encodeBase 0xC baseR) = decodeJmp baseR := by
  rw [decodeWord_jmp (opcodeField_encodeBase 0xC baseR), sr1Field_encodeBase]

theorem decodeWord_encodeTrap (v : Byte) : decodeWord (encodeTrap v) = decodeTrap v := by
  rw [decodeWord_trap (opcodeField_encodeTrap v), vect8_encodeTrap]

end DecodedFormats

/-- A register that does not spell RET decodes to JMP (R101, R102). -/
theorem decodeJmp_of_wf {baseR : Reg} (h : (Instr.jmp baseR).wf = true) : decodeJmp baseR = .jmp baseR :=
  if_neg (by simpa [Instr.wf] using h)

/-- A vector that names no service decodes to TRAP (R130). -/
theorem decodeTrap_of_wf {v : Byte} (h : (Instr.trap v).wf = true) : decodeTrap v = .trap v := by
  revert v; decide

/-- A well-formed instruction decodes from its own word. -/
theorem decodeWord_encode {i : Instr} (h : i.wf = true) : decodeWord (encode i) = i := by
  cases i with
  | addReg dr sr1 sr2 => exact decodeWord_encodeOpr decodeWord_add dr sr1 sr2
  | addImm dr sr1 imm5 => exact decodeWord_encodeOpi decodeWord_add dr sr1 imm5
  | andReg dr sr1 sr2 => exact decodeWord_encodeOpr decodeWord_and dr sr1 sr2
  | andImm dr sr1 imm5 => exact decodeWord_encodeOpi decodeWord_and dr sr1 imm5
  | not dr sr => exact decodeWord_encodeBase6 (make := fun dr sr _ => .not dr sr) decodeWord_not dr sr 0
  | br nzp off9 => exact decodeWord_encodePc9 decodeWord_br nzp off9
  | jmp baseR => exact (decodeWord_encodeJmp baseR).trans (decodeJmp_of_wf h)
  | ret => exact decodeWord_encodeJmp 7
  | jsr off11 => exact decodeWord_encodeJsr off11
  | jsrr baseR => exact decodeWord_encodeJsrr baseR
  | ld dr off9 => exact decodeWord_encodePc9 decodeWord_ld dr off9
  | ldi dr off9 => exact decodeWord_encodePc9 decodeWord_ldi dr off9
  | ldr dr baseR off6 => exact decodeWord_encodeBase6 decodeWord_ldr dr baseR off6
  | lea dr off9 => exact decodeWord_encodePc9 decodeWord_lea dr off9
  | st sr off9 => exact decodeWord_encodePc9 decodeWord_st sr off9
  | sti sr off9 => exact decodeWord_encodePc9 decodeWord_sti sr off9
  | str sr baseR off6 => exact decodeWord_encodeBase6 decodeWord_str sr baseR off6
  | trap vect8 => exact (decodeWord_encodeTrap vect8).trans (decodeTrap_of_wf h)
  | getc | out | puts | in_ | putsp | halt => exact decodeWord_encodeTrap _
  | illegal1000 | illegal1101 => rfl

/-- The byte decoder reads the instruction of the first two bytes and leaves the rest. -/
theorem decode_encodeBytes_append (i : Instr) (rest : List Byte) :
    decode (encodeBytes i ++ rest) = .ok (decodeWord (encode i), rest) := by
  rw [← Machine.wordOfBytes_high_low (encode i)]
  rfl

/-- Settles O2: each format gives back the fields it was put together from, and an instruction's two bytes are its word. -/
theorem decodeOfEncodeIsTheInstruction : Obligations.DecodeOfEncodeIsTheInstruction := fun i rest h =>
  ⟨decodeWord_encode h, by rw [decode_encodeBytes_append, decodeWord_encode h]⟩

/-! ### The ignored bits: encoding a word's fields masks the word -/

/-- Taking a field and placing it back keeps the field's bits and clears the others. -/
theorem place_field (w : Word) (lo len : Nat) : place (field w lo len) lo = w &&& place (BitVec.allOnes len) lo := by
  apply BitVec.eq_of_getLsbD_eq
  intro i hi
  by_cases hlo : i < lo
  · simp [place, hlo]
  · simp [place, field, hlo, hi, show lo + (i - lo) = i by omega, Bool.and_comm]

/-- The same of a single bit. -/
theorem place_bit (w : Word) (i : Nat) : place (BitVec.ofBool (w.getLsbD i)) i = w &&& place 1#1 i := by
  have hbit : BitVec.ofBool (w.getLsbD i) = field w i 1 := by
    apply BitVec.eq_of_getLsbD_eq
    intro j hj
    simp [field, show j = 0 by omega]
  rw [hbit, place_field]; rfl

section MaskedFormats

variable {w : Word} {op : BitVec 4} (hop : opcodeField w = op)
include hop

theorem encodePc9_fields : encodePc9 op (drField w) (field w 0 9) = w &&& 0xFFFF := by
  subst hop
  simp only [encodePc9, opcodeField, drField, place_field, ← BitVec.and_or_distrib_left]; rfl

theorem encodeBase6_fields : encodeBase6 op (drField w) (sr1Field w) (field w 0 6) = w &&& 0xFFFF := by
  subst hop
  simp only [encodeBase6, opcodeField, drField, sr1Field, place_field, ← BitVec.and_or_distrib_left]; rfl

/-- NOT is written with bits 5:0 zero. -/
theorem encodeBase6_registers : encodeBase6 op (drField w) (sr1Field w) 0 = w &&& 0xFFC0 := by
  subst hop
  have hzero : place (0 : BitVec 6) 0 = w &&& 0 := by simp [place]
  simp only [encodeBase6, opcodeField, drField, sr1Field, place_field, hzero, ← BitVec.and_or_distrib_left]; rfl

theorem encodeBase_field : encodeBase op (sr1Field w) = w &&& 0xF1C0 := by
  subst hop
  simp only [encodeBase, opcodeField, sr1Field, place_field, ← BitVec.and_or_distrib_left]; rfl

theorem encodeOpr_fields (hmode : modeBit w = false) :
    encodeOpr op (drField w) (sr1Field w) (sr2Field w) = w &&& 0xFFE7 := by
  subst hop
  have hclear : w &&& place 1#1 5 = 0 := by rw [← place_bit, ← modeBit, hmode]; rfl
  have hsplit : w &&& 0xFFE7 = w &&& 0xFFC7 ||| w &&& place 1#1 5 := by
    rw [← BitVec.and_or_distrib_left]; rfl
  rw [hsplit, hclear]
  simp only [encodeOpr, opcodeField, drField, sr1Field, sr2Field, place_field, ← BitVec.and_or_distrib_left]
  exact BitVec.or_zero.symm

theorem encodeOpi_fields (hmode : modeBit w = true) :
    encodeOpi op (drField w) (sr1Field w) (field w 0 5) = w &&& 0xFFFF := by
  subst hop
  have hset : place 1#1 5 = w &&& place 1#1 5 := by rw [← place_bit, ← modeBit, hmode]; rfl
  simp only [encodeOpi, opcodeField, drField, sr1Field, place_field]
  rw [hset]
  simp only [← BitVec.and_or_distrib_left]; rfl

end MaskedFormats

theorem encodeJsr_field {w : Word} (hop : opcodeField w = 0x4#4) (hlong : longFlag w = true) :
    encodeJsr (field w 0 11) = w &&& 0xFFFF := by
  have hset : place 1#1 11 = w &&& place 1#1 11 := by rw [← place_bit, ← longFlag, hlong]; rfl
  rw [encodeJsr, ← hop, hset]
  simp only [opcodeField, place_field, ← BitVec.and_or_distrib_left]; rfl

theorem encodeJsrr_field {w : Word} (hop : opcodeField w = 0x4) (hlong : longFlag w = false) :
    encodeBase 0x4 (sr1Field w) = w &&& 0xF9C0 := by
  have hclear : w &&& place 1#1 11 = 0 := by rw [← place_bit, ← longFlag, hlong]; rfl
  have hsplit : w &&& 0xF9C0 = w &&& 0xF1C0 ||| w &&& place 1#1 11 := by
    rw [← BitVec.and_or_distrib_left]; rfl
  rw [hsplit, hclear, encodeBase_field hop]
  exact BitVec.or_zero.symm

theorem encodeTrap_field {w : Word} (hop : opcodeField w = 0xF#4) : encodeTrap (field w 0 8) = w &&& 0xF0FF := by
  rw [encodeTrap, ← hop]
  simp only [opcodeField, place_field, ← BitVec.and_or_distrib_left]; rfl

/-- An illegal opcode's word is its opcode alone. -/
theorem opcodeField_placed {w : Word} {op : BitVec 4} (hop : opcodeField w = op) : place op 12 = w &&& 0xF000 := by
  rw [← hop, opcodeField, place_field]; rfl

theorem encode_decodeJmp (baseR : Reg) : encode (decodeJmp baseR) = encodeBase 0xC baseR := by
  unfold decodeJmp
  split
  · next h => rw [h]; rfl
  · rfl

theorem encode_decodeTrap (v : Byte) : encode (decodeTrap v) = encodeTrap v := by
  revert v; decide

/-! ### Which bits a word's decoding examines -/

/-- The examined bits, read from the word's side: the opcode decides them, with the mode bit for ADD and AND and the
long flag for JSR (R70). -/
def examinedBitsOf (op : Opcode) (mode long : Bool) : Word :=
  match op with
  | .add | .and => if mode then 0xFFFF else 0xFFE7
  | .jsr => if long then 0xFFFF else 0xF9C0
  | .not => 0xFFC0
  | .jmp => 0xF1C0
  | .trap => 0xF0FF
  | .rti | .reserved => 0xF000
  | .br | .ld | .st | .ldr | .str | .ldi | .sti | .lea => 0xFFFF

theorem examinedBits_decodeJmp (baseR : Reg) : (decodeJmp baseR).examinedBits = 0xF1C0 := by
  unfold decodeJmp; split <;> rfl

theorem examinedBits_decodeTrap (v : Byte) : (decodeTrap v).examinedBits = 0xF0FF := by
  revert v; decide

theorem examinedBits_decodeWord (w : Word) :
    (decodeWord w).examinedBits = examinedBitsOf (Opcode.ofBits (opcodeField w)) (modeBit w) (longFlag w) := by
  unfold decodeWord
  cases Opcode.ofBits (opcodeField w) with
  | jmp => exact examinedBits_decodeJmp _
  | trap => exact examinedBits_decodeTrap _
  | add | and => cases modeBit w <;> rfl
  | jsr => cases longFlag w <;> rfl
  | _ => rfl

/-- The opcode is always examined. -/
theorem examinedBits_covers_opcode (i : Instr) : field i.examinedBits 12 4 = BitVec.allOnes 4 := by
  cases i <;> simp only [Instr.examinedBits] <;> decide

/-- Words that agree on the bits the first one's decoding examines have the same bits examined. -/
theorem examinedBits_of_agree {v w : Word}
    (h : v &&& (decodeWord v).examinedBits = w &&& (decodeWord v).examinedBits) :
    (decodeWord w).examinedBits = (decodeWord v).examinedBits := by
  have hop : opcodeField w = opcodeField v := by
    rw [opcodeField_of_mask h (examinedBits_covers_opcode _), opcodeField_of_mask rfl (examinedBits_covers_opcode _)]
  have hbit : ∀ i, (decodeWord v).examinedBits.getLsbD i = true → w.getLsbD i = v.getLsbD i := fun i hi => by
    rw [getLsbD_of_mask h i hi, getLsbD_of_mask rfl i hi]
  have hmode := hbit 5
  have hlong := hbit 11
  rw [examinedBits_decodeWord] at hmode hlong
  rw [examinedBits_decodeWord, examinedBits_decodeWord, hop]
  cases hv : Opcode.ofBits (opcodeField v) with
  | add | and =>
    rw [hv] at hmode
    have hmode : modeBit w = modeBit v := hmode (by cases modeBit v <;> simp [examinedBitsOf])
    rw [hmode]; rfl
  | jsr =>
    rw [hv] at hlong
    have hlong : longFlag w = longFlag v := hlong (by cases longFlag v <;> simp [examinedBitsOf])
    rw [hlong]; rfl
  | _ => rfl

theorem opcodeField_cases (w : Word) :
    opcodeField w = 0x0 ∨ opcodeField w = 0x1 ∨ opcodeField w = 0x2 ∨ opcodeField w = 0x3 ∨ opcodeField w = 0x4 ∨
      opcodeField w = 0x5 ∨ opcodeField w = 0x6 ∨ opcodeField w = 0x7 ∨ opcodeField w = 0x8 ∨ opcodeField w = 0x9 ∨
      opcodeField w = 0xA ∨ opcodeField w = 0xB ∨ opcodeField w = 0xC ∨ opcodeField w = 0xD ∨ opcodeField w = 0xE ∨
      opcodeField w = 0xF := by
  generalize opcodeField w = op
  revert op; decide

/-- The encoder gives back a word with its ignored bits zeroed. -/
theorem encode_decodeWord (w : Word) : encode (decodeWord w) = w &&& (decodeWord w).examinedBits := by
  rcases opcodeField_cases w with hop | hop | hop | hop | hop | hop | hop | hop | hop | hop | hop | hop | hop | hop |
    hop | hop
  · rw [decodeWord_br hop]; exact encodePc9_fields hop
  · rw [decodeWord_add hop]
    cases hmode : modeBit w with
    | true => exact encodeOpi_fields hop hmode
    | false => exact encodeOpr_fields hop hmode
  · rw [decodeWord_ld hop]; exact encodePc9_fields hop
  · rw [decodeWord_st hop]; exact encodePc9_fields hop
  · rw [decodeWord_call hop]
    cases hlong : longFlag w with
    | true => exact encodeJsr_field hop hlong
    | false => exact encodeJsrr_field hop hlong
  · rw [decodeWord_and hop]
    cases hmode : modeBit w with
    | true => exact encodeOpi_fields hop hmode
    | false => exact encodeOpr_fields hop hmode
  · rw [decodeWord_ldr hop]; exact encodeBase6_fields hop
  · rw [decodeWord_str hop]; exact encodeBase6_fields hop
  · rw [decodeWord_eq_illegal1000.mpr hop]; exact opcodeField_placed hop
  · rw [decodeWord_not hop]; exact encodeBase6_registers hop
  · rw [decodeWord_ldi hop]; exact encodePc9_fields hop
  · rw [decodeWord_sti hop]; exact encodePc9_fields hop
  · rw [decodeWord_jmp hop, encode_decodeJmp, examinedBits_decodeJmp]; exact encodeBase_field hop
  · rw [decodeWord_eq_illegal1101.mpr hop]; exact opcodeField_placed hop
  · rw [decodeWord_lea hop]; exact encodePc9_fields hop
  · rw [decodeWord_trap hop, encode_decodeTrap, examinedBits_decodeTrap]; exact encodeTrap_field hop

/-- Words that agree on the bits examined for the first have the same encoding after decoding, so they decode alike. -/
theorem decodeWord_of_agree {v w : Word}
    (h : v &&& (decodeWord v).examinedBits = w &&& (decodeWord v).examinedBits) : decodeWord w = decodeWord v := by
  have hencode : encode (decodeWord w) = encode (decodeWord v) := by
    rw [encode_decodeWord, encode_decodeWord, examinedBits_of_agree h, h]
  rw [← decodeWord_encode (decodeWord_wf w), hencode, decodeWord_encode (decodeWord_wf v)]

/-- Settles O4: each format's fields put back together are the word under a mask, and that masked word decides the
decoding. -/
theorem decoderDropsOnlyIgnoredBits : Obligations.DecoderDropsOnlyIgnoredBits :=
  ⟨encode_decodeWord, fun _ _ => decodeWord_of_agree⟩

/-- Settles O5, by running the decoder on the ten words. -/
theorem sampleWordsDecode : Obligations.SampleWordsDecode := by
  unfold Obligations.SampleWordsDecode
  decide

end Sys2Proof
end

section
/-! PROOFS of the family other, the whole machine: the invariant (R34) from reset, from any boot and over every step, what
changes memory (R42), and the two ends of the terminal (R141, R172). -/

namespace Sys2Proof.Machine

/-! ### What every instruction keeps -/

/-- Every instruction keeps memory in its canonical form. -/
theorem exec_keeps_canonical {i : Instr} {s t : State} (h : exec i s = .next t) (hs : s.mem.wf = true) :
    t.mem.wf = true := by
  cases exec_shape h with
  | result u dr v read e => simpa [e] using read.core.canonical hs
  | goto v e => simpa [e] using hs
  | call v e => simpa [e] using hs
  | store u a v read e => simpa [e] using Memory.wf_write _ a v (read.core.canonical hs)
  | readChar c rest next e => simpa [e] using hs
  | wrote scanned => exact scanned.core.canonical hs
  | prompt e => simpa [e] using hs
  | halt e => simpa [e] using hs
  | abort e => simpa [e] using hs

/-- COND is left alone or becomes the classification of a value, so it stays one-hot. -/
theorem exec_keeps_condOneHot {i : Instr} {s t : State} (h : exec i s = .next t) (hs : s.CondOneHot) :
    t.CondOneHot := by
  cases hc : i.writesCond with
  | true =>
    obtain ⟨dr, -, e⟩ := exec_cond_of_written h hc
    simpa [State.CondOneHot, e] using flagOf_oneHot (t.reg dr)
  | false => simpa [State.CondOneHot, exec_cond_of_not_written h hc] using hs

/-- An instruction that begins at a boundary of a running machine leaves it RUNNING if it sets `inPhase`. -/
theorem exec_running_of_inPhase {i : Instr} {s t : State} (hrun : s.run = .running) (hphase : s.inPhase = false)
    (h : exec i s = .next t) (ht : t.inPhase = true) : t.run = .running := by
  rcases (exec_inPhase_iff hphase h).mp ht with rfl | rfl <;> cases h <;> exact hrun

/-! ### The invariant -/

/-- The fetch keeps the invariant: its read may only touch KBSR and KBDR, in canonical form. -/
theorem State.fetch_keeps_inv {s : State} (hs : s.Inv) : s.fetch.Inv := by
  obtain ⟨hcanonical, hcond, hphase⟩ := hs
  exact ⟨(s.memRead_sameCore s.pc).canonical hcanonical, by simpa [State.CondOneHot] using hcond, by simpa using hphase⟩

/-- Settles O52: phase 2 of IN clears `inPhase` and touches neither memory nor COND; at a boundary the fetch and then the
instruction keep each clause. -/
theorem stepKeepsTheInvariant : Obligations.StepKeepsTheInvariant := by
  intro s t hs h
  obtain ⟨hrun, ⟨-, hread⟩ | ⟨hphase, hexec⟩⟩ := step_next h
  · obtain ⟨hcanonical, hcond, -⟩ := hs
    obtain ⟨c, rest, -, rfl⟩ := State.inReadPhase_next hread
    exact ⟨hcanonical, hcond, by simp⟩
  · obtain ⟨hcanonical, hcond, -⟩ := State.fetch_keeps_inv hs
    exact ⟨exec_keeps_canonical hexec hcanonical, exec_keeps_condOneHot hexec hcond,
      exec_running_of_inPhase (s.fetch_run.trans hrun) (s.fetch_inPhase.trans hphase) hexec⟩

/-- Settles O50, by evaluating the reset state: empty memory, COND = ZRO, `inPhase` false. -/
theorem resetMeetsTheInvariant : Obligations.ResetMeetsTheInvariant := by
  unfold Obligations.ResetMeetsTheInvariant
  decide

/-- The loader leaves memory in its canonical form. -/
theorem loadImage_canonical {bytes : List Byte} {m : Memory} (h : loadImage bytes = some m) : m.wf = true := by
  unfold loadImage at h
  split at h
  · obtain ⟨-, e⟩ := Option.ite_none_right_eq_some.mp h
    cases e
    exact loadWords_wf [] _ _ rfl
  · cases h
  · cases h

/-- Settles O51: an image that loads adds its memory to the reset state, which meets the other clauses. -/
theorem bootMeetsTheInvariant : Obligations.BootMeetsTheInvariant := by
  intro bytes m input h
  obtain ⟨-, hcond, hphase⟩ := resetMeetsTheInvariant
  rw [State.boot_of_loadImage h]
  exact ⟨loadImage_canonical h, hcond, hphase⟩

/-! ### What changes memory -/

/-- From `s` polls and reads led to `u`, and of what `u` has in memory, `t` differs at most in the word that `i` stores
to. -/
structure StoredOver (i : Instr) (s u t : State) : Prop where
  core : SameCore s u
  polled : PolledOrSame s u
  polls : t.polls = u.polls
  words : ∀ a, s.storeAddress i ≠ some a → t.mem.read a = u.mem.read a

/-- Where neither a poll nor a store was made. -/
theorem StoredOver.of_mem_eq {i : Instr} {s t : State} (hpolls : t.polls = s.polls) (hmem : t.mem = s.mem) :
    StoredOver i s s t :=
  ⟨.refl s, .inr ⟨rfl, rfl⟩, hpolls, fun _ _ => by rw [hmem]⟩

theorem exec_storedOver {i : Instr} {s t : State} (h : exec i s = .next t) : ∃ u, StoredOver i s u t := by
  cases exec_shape h with
  | result u dr v read e => exact ⟨u, read.core, read.polled, by simp [e], fun a _ => by simp [e]⟩
  | goto v e => exact ⟨s, .of_mem_eq (by simp [e]) (by simp [e])⟩
  | call v e => exact ⟨s, .of_mem_eq (by simp [e]) (by simp [e])⟩
  | store u b v read e address =>
    refine ⟨u, read.core, read.polled, by simp [e], fun a ha => ?_⟩
    rw [e]
    exact u.memWrite_read_ne v fun hab => ha (hab ▸ address)
  | readChar c rest next e => exact ⟨s, .of_mem_eq (by simp [e]) (by simp [e])⟩
  | wrote scanned => exact ⟨t, scanned.core, scanned.polled, rfl, fun _ _ => rfl⟩
  | prompt e => exact ⟨s, .of_mem_eq (by rw [e]) (by rw [e])⟩
  | halt e => exact ⟨s, .of_mem_eq (by simp [e]) (by simp [e])⟩
  | abort e => exact ⟨s, .of_mem_eq (by simp [e]) (by simp [e])⟩

/-- Settles O54: polls and reads leave all words but KBSR and KBDR alone, and without a poll those too. -/
theorem onlyStoresAndPollsChangeMemory : Obligations.OnlyStoresAndPollsChangeMemory := by
  intro i s t a h haddress
  obtain ⟨u, hcore, hpolled, hpolls, hwords⟩ := exec_storedOver h
  rw [hwords a haddress]
  refine ⟨fun hkbsr hkbdr => hcore.words a hkbsr hkbdr, fun hsame => ?_⟩
  rcases hpolled with hmore | ⟨-, hmem⟩
  · omega
  · rw [hmem]

/-! ### Output and input -/

/-- From `s` to `t` the output has only grown, and input characters were taken from the front only. -/
structure Flowed (s t : State) : Prop where
  output : s.output <+: t.output
  input : ∃ k, t.input = s.input.drop k

theorem Flowed.trans {s t u : State} (h : Flowed s t) (k : Flowed t u) : Flowed s u := by
  obtain ⟨m, hm⟩ := h.input
  obtain ⟨n, hn⟩ := k.input
  exact ⟨h.output.trans k.output, m + n, by rw [hn, hm, Input.drop_drop]⟩

/-- Where output and input are as before. -/
theorem Flowed.of_eq {s t : State} (houtput : t.output = s.output) (hinput : t.input = s.input) : Flowed s t :=
  ⟨by rw [houtput], 0, hinput⟩

theorem ReadTo.flowed {s u : State} (h : ReadTo s u) : Flowed s u := ⟨by rw [h.output], h.input⟩

/-- Taking the next character. -/
theorem Flowed.of_next {s t : State} {c : Byte} {rest : Input} (hnext : s.input.next = some (c, rest))
    (houtput : t.output = s.output) (hinput : t.input = rest) : Flowed s t :=
  ⟨by rw [houtput], 1, hinput.trans (Input.next_eq_drop hnext)⟩

theorem exec_flowed {i : Instr} {s t : State} (h : exec i s = .next t) : Flowed s t := by
  cases exec_shape h with
  | result u dr v read e => exact read.flowed.trans (.of_eq (by simp [e]) (by simp [e]))
  | goto v e => exact .of_eq (by simp [e]) (by simp [e])
  | call v e => exact .of_eq (by simp [e]) (by simp [e])
  | store u a v read e => exact read.flowed.trans (.of_eq (by simp [e]) (by simp [e]))
  | readChar c rest next e => exact .of_next next (by simp [e]) (by simp [e])
  | wrote scanned => exact ⟨scanned.output, scanned.input⟩
  | prompt e => exact ⟨⟨Config.inPrompt, by rw [e]⟩, 0, by rw [e]; rfl⟩
  | halt e => exact .of_eq (by simp [e]) (by simp [e])
  | abort e => exact .of_eq (by simp [e]) (by simp [e])

theorem State.fetch_flowed (s : State) : Flowed s s.fetch :=
  (s.memRead_readTo s.pc).flowed.trans (.of_eq rfl rfl)

/-- Settles O56: phase 2 of IN takes one character; at a boundary the fetch may poll and the instruction follows. -/
theorem outputGrowsAndInputIsConsumed : Obligations.OutputGrowsAndInputIsConsumed := by
  intro s t h
  have hflowed : Flowed s t := by
    obtain ⟨-, ⟨-, hread⟩ | ⟨-, hexec⟩⟩ := step_next h
    · obtain ⟨c, rest, hnext, rfl⟩ := State.inReadPhase_next hread
      exact .of_next hnext rfl rfl
    · exact s.fetch_flowed.trans (exec_flowed hexec)
  exact ⟨hflowed.output, hflowed.input⟩

end Sys2Proof.Machine
end

section
/-! PROOFS of the family other, control, memory and devices: BR's two fixed outcomes (R71), JSRR (R104), the step of a
call (R186), the read of KBSR (R43), the host's delivery (R174), the device primitives (R172), and a store seen by a fetch
(R52). -/

namespace Sys2Proof

theorem decodeWord_jsrr {w : Word} (h : w &&& 0xF800 = 0x4000) : decodeWord w = .jsrr (sr1Field w) := by
  have hlong : longFlag w = false := longFlag_of_mask h rfl
  simp [decodeWord_call (opcodeField_of_mask h rfl), hlong]

end Sys2Proof

namespace Sys2Proof.Machine

/-! ### Control -/

/-- A BR with every condition bit set meets any one-hot COND (R71). -/
theorem exec_br_always {s : State} (h : s.CondOneHot) (off9 : BitVec 9) :
    exec (.br 0b111 off9) s = .next (s.setPc (s.pc + off9.signExtend 16)) := by
  have hmeets : 0b111 &&& s.cond ≠ 0 := by
    rcases h with e | e | e <;> rw [e] <;> decide
  rw [exec_br, if_pos hmeets]

/-- Settles O11: an empty condition field meets no COND, a full one every one-hot COND. -/
theorem branchNeverAndAlways : Obligations.BranchNeverAndAlways :=
  ⟨fun off9 s => ⟨s, exec_br_never off9 s, rfl⟩, fun off9 _ h => exec_wentTo (exec_br_always h off9)⟩

/-- JSRR reads BaseR after the link: R7 then holds the return address, any other register what it held (R104, D19). -/
theorem exec_jsrr (baseR : Reg) (s : State) :
    exec (.jsrr baseR) s =
      .next ((s.setReg linkReg s.pc).setPc (if baseR = 7#3 then s.pc else s.reg baseR)) := by
  have hbase : (s.setReg linkReg s.pc).reg baseR = if baseR = 7#3 then s.pc else s.reg baseR := by
    split
    · next h => rw [h]; exact s.setReg_reg_self linkReg s.pc
    · next h => exact s.setReg_reg_ne s.pc h
  rw [← hbase]; rfl

/-- Settles O14: the opcode and bit 11 make a word a JSRR, whose effect is a call. -/
theorem jsrrReadsTheBaseAfterTheLink : Obligations.JsrrReadsTheBaseAfterTheLink :=
  ⟨fun _ => decodeWord_jsrr, fun baseR s => exec_called (exec_jsrr baseR s)⟩

/-- A step whose instruction is a call saves the address after the fetched one and goes to the call's target. -/
theorem step_called {s : State} {i : Instr} {target : Word} (hrun : s.run = .running) (hphase : s.inPhase = false)
    (hword : decodeWord s.fetch.ir = i) (hcall : ∃ t, exec i s.fetch = .next t ∧ Called s.fetch t target) :
    ∃ t, step s = .next t ∧ t.reg 7#3 = s.pc + 1 ∧ t.pc = target := by
  obtain ⟨t, hexec, hcalled⟩ := hcall
  exact ⟨t, by rw [step_boundary hrun hphase, hword, hexec], hcalled.link, hcalled.pc⟩

/-- Settles O15: the body of a call runs with the PC at A+1, and the fetch leaves the base register alone. -/
theorem callStepSavesTheFollowingAddress : Obligations.CallStepSavesTheFollowingAddress := by
  refine ⟨fun s off11 hrun hphase hword => ?_, fun s baseR hrun hphase hword hbase => ?_⟩
  · exact step_called hrun hphase hword (exec_called (exec_jsr s.fetch off11))
  · have hcall := exec_called (exec_jsrr baseR s.fetch)
    rw [if_neg hbase, s.fetch_reg] at hcall
    exact step_called hrun hphase hword hcall

/-! ### The read of KBSR -/

/-- What a poll that finds the character `c` stores (D11, D12). -/
theorem State.storeHit_words (s : State) (c : Byte) :
    ((s.store Config.kbsr 0x8000).store Config.kbdr (zext8 c)).mem.read Config.kbsr = 0x8000 ∧
      ((s.store Config.kbsr 0x8000).store Config.kbdr (zext8 c)).mem.read Config.kbdr = zext8 c := by
  have hne : Config.kbsr ≠ Config.kbdr := by decide
  simp [Memory.read_write_ne _ _ hne]

/-- What a poll that finds none stores. -/
theorem State.storeMiss_words (s : State) :
    (s.store Config.kbsr 0x0000).mem.read Config.kbsr = 0 ∧
      (s.store Config.kbsr 0x0000).mem.read Config.kbdr = s.mem.read Config.kbdr := by
  have hne : Config.kbdr ≠ Config.kbsr := by decide
  simp [Memory.read_write_ne _ _ hne]

theorem State.pollKeyboard_polls (s : State) : s.pollKeyboard.polls = s.polls + 1 := by
  rcases s.pollKeyboard_cases with ⟨c, rest, -, -, e⟩ | ⟨-, e⟩ <;> rw [e] <;> rfl

/-- Settles O16: away from KBSR the read is plain; at KBSR it is the poll, a hit or a miss. -/
theorem memReadPollsOnlyKbsr : Obligations.MemReadPollsOnlyKbsr := by
  refine ⟨fun s a h => s.memRead_of_ne h, fun s => ?_⟩
  refine ⟨s.pollKeyboard, _, s.memRead_kbsr, rfl, s.pollKeyboard_sameCore, s.pollKeyboard_output,
    s.pollKeyboard_polls, ?_⟩
  rcases s.pollKeyboard_cases with ⟨c, rest, hnext, hdraw, e⟩ | ⟨hmiss, e⟩
  · obtain ⟨hkbsr, hkbdr⟩ := (s.countPoll.setInput rest).storeHit_words c
    rw [e, hnext, hdraw]
    exact ⟨hkbsr, hkbdr, rfl⟩
  · obtain ⟨hkbsr, hkbdr⟩ := s.countPoll.storeMiss_words
    have hmissed : (s.countPoll.store Config.kbsr 0).mem.read Config.kbsr = 0 ∧
        (s.countPoll.store Config.kbsr 0).mem.read Config.kbdr = s.mem.read Config.kbdr ∧
        (s.countPoll.store Config.kbsr 0).input = s.input := ⟨hkbsr, hkbdr, rfl⟩
    rw [e]
    rcases hmiss with hnone | hdraw
    · rw [hnone]; exact hmissed
    · rw [hdraw]
      cases s.input.next <;> exact hmissed

/-! ### The device primitives -/

/-- Settles O18, by what `InPoll` matches on: the pending character and the draw. -/
theorem devicePrimitives : Obligations.DevicePrimitives := by
  refine ⟨fun s c rest hnext => ⟨?_, ?_, ?_⟩, fun s hnone => ⟨fun d => ?_, ?_⟩, fun s => rfl, fun s c => ⟨rfl, rfl⟩⟩
  · exact ⟨s.countPoll.setInput rest, by simp [State.inPollDrawn, hnext], rfl, rfl⟩
  · exact ⟨s.countPoll, by simp [State.inPollDrawn, hnext], rfl, rfl⟩
  · exact ⟨s.setInput rest, by simp [State.inRead, hnext], rfl, rfl⟩
  · exact ⟨s.countPoll, by simp [State.inPollDrawn, hnone], rfl, rfl⟩
  · simp [State.inRead, hnone]

/-! ### The host's delivery -/

theorem Input.next_eq_none {i : Input} : i.next = none ↔ i = .done := by
  cases i <;> simp [Input.next]

/-- What is delivered comes after what is pending. -/
theorem Input.append_next {i rest : Input} {c : Byte} (h : i.next = some (c, rest)) (cs : List Byte) :
    (i.append cs).next = some (c, rest.append cs) := by
  cases i with
  | done => cases h
  | cons c' rest' => cases h; rfl
  | endless pos => cases h; rfl

theorem Input.append_nil (i : Input) : i.append [] = i := by
  induction i with
  | done => rfl
  | cons c rest ih => rw [Input.append, ih]
  | endless pos => rfl

theorem Input.ofList_append (cs ds : List Byte) : (Input.ofList cs).append ds = Input.ofList (cs ++ ds) := by
  induction cs with
  | nil => rfl
  | cons c cs ih => rw [Input.ofList, Input.append, ih]; rfl

theorem Input.append_append (i : Input) (cs ds : List Byte) : (i.append cs).append ds = i.append (cs ++ ds) := by
  induction i with
  | done => exact Input.ofList_append cs ds
  | cons c rest ih => simp only [Input.append, ih]
  | endless pos => rfl

/-- Settles O19: delivery is the input's `append` and nothing else. -/
theorem hostAppendsToTheInput : Obligations.HostAppendsToTheInput := by
  refine ⟨fun s cs => rfl, fun s c rest cs hnext => Input.append_next hnext cs, fun s c cs hnone => ?_, fun s => ?_,
    fun s cs ds => ?_⟩
  · rw [State.deliver_input, State.deliver_input, Input.next_eq_none.mp hnone]; rfl
  · rw [State.deliver, Input.append_nil]; rfl
  · exact congrArg s.setInput (s.input.append_append cs ds)

/-! ### A store seen by the next fetch -/

/-- A fetch right after a store, from the address stored to, latches the stored word (R52). -/
theorem State.fetch_ir_of_memWrite (s : State) {a : Word} (v : Word) (h : a ≠ Config.kbsr) :
    ((s.memWrite a v).setPc a).fetch.ir = v := by
  rw [State.fetch_ir, State.setPc_pc, State.memRead_of_ne _ h, State.setPc_mem, State.memWrite_mem,
    Memory.read_write_self]

/-- Settles O27: each store's own word stays latched, STI's through the read of its pointer too. -/
theorem storeIsSeenByTheNextFetch : Obligations.StoreIsSeenByTheNextFetch :=
  ⟨fun sr off9 s h => ⟨_, exec_st s sr off9, rfl, s.fetch_ir_of_memWrite _ h⟩,
    fun sr off9 s h => ⟨_, exec_sti s sr off9, (s.memRead_sameCore _).ir, State.fetch_ir_of_memWrite _ _ h⟩,
    fun sr baseR off6 s h => ⟨_, exec_str s sr baseR off6, rfl, s.fetch_ir_of_memWrite _ h⟩⟩

end Sys2Proof.Machine
end

section
/-! PROOFS of the family other, the trap services that scan no string: TRAP and its vectors (R130, R131, R139), GETC (R132),
OUT (R133), IN (R135), HALT (R137), and the wait for a character (R173). -/

namespace Sys2Proof

/-! ### The words of TRAP -/

/-- The low byte of a TRAP word decides it, whatever bits 11:8 hold (R130). -/
theorem decodeWord_service {w v : Word} (h : w &&& 0xF0FF = v) (hop : opcodeField v = 0xF) :
    decodeWord w = decodeTrap (lowByte v) := by
  have hvector : field w 0 8 = lowByte v := field_of_mask h 0 8 rfl
  rw [decodeWord_trap ((opcodeField_of_mask h rfl).trans hop), hvector]

theorem isServiceVector_eq_false {v : Byte} : isServiceVector v = false ↔ v < 0x20 ∨ 0x25 < v := by
  revert v; decide

theorem decodeWord_unusedVector {w : Word} (h : w &&& 0xF000 = 0xF000)
    (hvector : field w 0 8 < 0x20 ∨ 0x25 < field w 0 8) : decodeWord w = .trap (field w 0 8) := by
  rw [decodeWord_trap (opcodeField_of_mask h rfl)]
  exact decodeTrap_of_wf (by simp [Instr.wf, isServiceVector_eq_false.mpr hvector])

end Sys2Proof

namespace Sys2Proof.Machine

/-- Settles O28: the word's low byte chooses the service, and the dispatcher runs it. -/
theorem trapDispatchesOnItsVector : Obligations.TrapDispatchesOnItsVector :=
  ⟨fun _ h => decodeWord_service h rfl, fun _ h => decodeWord_service h rfl, fun _ h => decodeWord_service h rfl,
    fun _ h => decodeWord_service h rfl, fun _ h => decodeWord_service h rfl, fun _ h => decodeWord_service h rfl,
    fun _ => decodeWord_unusedVector, trapDispatch_service,
    fun _ s h => trapDispatch_other s (isServiceVector_eq_false.mpr h)⟩

/-! ### Writing codes -/

/-- Writing codes adds them to the output and changes nothing else (R13). -/
theorem State.outWriteAll_wrote (s : State) (cs : List Word) : WroteCodes s (s.outWriteAll cs) cs where
  output := rfl
  regs _ := rfl
  pc := rfl
  cond := rfl
  bytes _ := rfl
  control := ⟨rfl, rfl, rfl⟩
  keyboard := ⟨rfl, rfl⟩

theorem exec_out (s : State) : exec .out s = .next (s.outWriteAll [zext8 (lowByte (s.reg 0#3))]) := rfl

/-- Settles O30: the low byte x21 makes a word of opcode 1111 an OUT, which writes one code. -/
theorem outWritesTheLowByte : Obligations.OutWritesTheLowByte :=
  ⟨fun _ h => decodeWord_service h rfl, fun s => ⟨_, exec_out s, s.outWriteAll_wrote _⟩⟩

theorem exec_halt (s : State) : exec .halt s = .next s.haltRun := rfl

/-- HALT sets the run state and nothing else (R137). -/
theorem State.haltRun_runBecame (s : State) : RunBecame s s.haltRun .halted where
  run := by simp
  regs r := by simp
  pc := by simp
  cond := by simp
  bytes n := by simp
  ir := by simp
  inPhase := by simp
  keyboard := ⟨by simp, by simp⟩
  output := by simp

/-- Settles O38. -/
theorem haltEndsTheRun : Obligations.HaltEndsTheRun := fun s => ⟨_, exec_halt s, s.haltRun_runBecame⟩

/-! ### Reading a character -/

/-- Taking the next character into R0 changes R0 and the input, and nothing else (R132). -/
theorem State.takeChar_read (s : State) (c : Byte) (rest : Input) :
    ReadChar s ((s.setInput rest).setReg 0#3 (zext8 c)) c rest where
  result := State.setReg_reg_self _ _ _
  input := by simp
  polls := by simp
  regs r h := by simp [h]
  pc := by simp
  cond := by simp
  bytes n := by simp
  run := by simp
  ir := by simp
  output := by simp

/-- `inPhase` is no part of the reading of a character. -/
theorem ReadChar.setInPhase {s t : State} {c : Byte} {rest : Input} (h : ReadChar s t c rest) (b : Bool) :
    ReadChar s (t.setInPhase b) c rest :=
  ⟨h.result, h.input, h.polls, h.regs, h.pc, h.cond, h.bytes, h.run, h.ir, h.output⟩

/-- Reading a delivered character changes of the state before the delivery what it changes of the state after it. -/
theorem ReadChar.of_deliver {s t : State} {cs : List Byte} {c : Byte} {rest : Input}
    (h : ReadChar (s.deliver cs) t c rest) : ReadChar s t c rest :=
  ⟨h.result, h.input, h.polls, h.regs, h.pc, h.cond, h.bytes, h.run, h.ir, h.output⟩

theorem exec_getc_of_pending {s : State} {c : Byte} {rest : Input} (h : s.input.next = some (c, rest)) :
    exec .getc s = .next ((s.setInput rest).setReg 0#3 (zext8 c)) := by
  rcases s.readChar_cases with ⟨c', rest', hnext, e⟩ | ⟨hnone, -⟩
  · cases h.symm.trans hnext
    exact e
  · simp [h] at hnone

theorem State.readChar_of_none {s : State} (h : s.input.next = none) : s.readChar = .fault .waitingForInput := by
  rcases s.readChar_cases with ⟨c, rest, hnext, -⟩ | ⟨-, e⟩
  · simp [h] at hnext
  · exact e

/-- Settles O29: GETC is the read. -/
theorem getcReadsTheNextCharacter : Obligations.GetcReadsTheNextCharacter := fun s c rest h =>
  ⟨_, exec_getc_of_pending h, s.takeChar_read c rest, rfl⟩

/-- Phase 2 of IN, where a character is pending. -/
theorem step_inPhase_of_pending {s : State} {c : Byte} {rest : Input} (hrun : s.run = .running)
    (hphase : s.inPhase = true) (h : s.input.next = some (c, rest)) :
    ∃ t, step s = .next t ∧ ReadChar s t c rest ∧ t.inPhase = false :=
  ⟨_, (step_inPhase hrun hphase).trans (State.inReadPhase_of_pending h), (s.takeChar_read c rest).setInPhase false, rfl⟩

theorem exec_in (s : State) : exec .in_ s = .next ((s.outWriteAll Config.inPrompt).setInPhase true) := rfl

/-- Settles O37: IN writes the prompt and sets `inPhase`; the step after it is the read of phase 2. -/
theorem inPromptsThenReads : Obligations.InPromptsThenReads :=
  ⟨fun s => ⟨_, exec_in s, rfl, rfl, fun _ => rfl, rfl, rfl, fun _ => rfl, rfl, rfl, rfl, rfl⟩,
    fun _ _ _ => step_inPhase_of_pending⟩

/-- With nothing pending, what is delivered is all that comes. -/
theorem State.deliver_input_next {s : State} (h : s.input.next = none) (c : Byte) (cs : List Byte) :
    (s.deliver (c :: cs)).input.next = some (c, Input.ofList cs) := by
  rw [State.deliver_input, Input.next_eq_none.mp h]; rfl

/-- Phase 2 of IN, where no character is pending (R173). -/
theorem step_inPhase_of_none {s : State} (hrun : s.run = .running) (hphase : s.inPhase = true)
    (h : s.input.next = none) : step s = .fault .waitingForInput :=
  (step_inPhase hrun hphase).trans (State.readChar_of_none (s := s.setInPhase false) h)

/-- Settles O39: both reads fault with no character pending and take the delivered one. -/
theorem waitEndsWhenACharacterArrives : Obligations.WaitEndsWhenACharacterArrives := by
  refine ⟨fun s c cs hnone => ⟨State.readChar_of_none hnone, ?_⟩, fun s c cs hrun hphase hnone =>
    ⟨step_inPhase_of_none hrun hphase hnone, ?_⟩⟩
  · have hread := (s.deliver (c :: cs)).takeChar_read c (Input.ofList cs)
    exact ⟨_, exec_getc_of_pending (State.deliver_input_next hnone c cs), hread.of_deliver⟩
  · obtain ⟨t, hstep, hread, -⟩ :=
      step_inPhase_of_pending (s := s.deliver (c :: cs)) hrun hphase (State.deliver_input_next hnone c cs)
    exact ⟨t, hstep, hread.of_deliver⟩

end Sys2Proof.Machine
end

section
/-! PROOFS of the family other, reset and boot: what reset leaves (R32), where the loader puts an image's words (R182), and
which images are a LOAD_ERROR (R183). -/

namespace Sys2Proof.Machine

/-- Settles O46: every register and every memory word is zero, and the other fields are those of the definition. -/
theorem resetValues : Obligations.ResetValues :=
  ⟨fun r => by simp [State.reg, State.reset], rfl, rfl, Memory.read_nil, rfl, rfl, rfl⟩

/-! ### Where the loader puts the words -/

/-- The address `k + 1` words on is `k` words on from the next one. -/
theorem add_ofNat_succ (a : Word) (k : Nat) : a + BitVec.ofNat 16 (k + 1) = a + 1 + BitVec.ofNat 16 k := by
  rw [Nat.add_comm k 1, BitVec.ofNat_add, ← BitVec.add_assoc]; rfl

/-- No word of the rest of an image that fits the memory falls on its first word. -/
theorem ne_add_one_add_ofNat (a : Word) {k : Nat} (hk : k + 1 < 65536) : a ≠ a + 1 + BitVec.ofNat 16 k := by
  intro h
  have hnat := congrArg BitVec.toNat h
  have hone : (1 : Word).toNat = 1 := rfl
  simp only [BitVec.toNat_add, BitVec.toNat_ofNat, hone] at hnat
  have := a.isLt
  omega

/-- The k-th word of an image's body, its first byte being the high one. -/
theorem loadWords_read_inside (m : Memory) (a : Word) (body : List Byte) (hfits : body.length / 2 ≤ 65536) {k : Nat}
    (hk : k < body.length / 2) :
    (loadWords m a body).read (a + BitVec.ofNat 16 k) = body.getD (2 * k) 0 ++ body.getD (2 * k + 1) 0 := by
  induction m, a, body using loadWords.induct generalizing k with
  | case1 m a hi lo rest ih =>
    have hlength : (hi :: lo :: rest).length / 2 = rest.length / 2 + 1 := Nat.add_div_right rest.length two_pos
    cases k with
    | zero =>
      have hfirst : (loadWords (m.write a (wordOfBytes hi lo)) (a + 1) rest).read a = wordOfBytes hi lo := by
        rw [loadWords_read_ne _ _ _ fun j hj => ne_add_one_add_ofNat a (by omega), Memory.read_write_self]
      simpa [loadWords, wordOfBytes] using hfirst
    | succ k =>
      rw [add_ofNat_succ]
      exact ih (by omega) (by omega)
  | case2 => simp at hk
  | case3 => simp at hk

/-- Settles O48: an image that fits loads into zero memory, its words one after the other and nothing beside them. -/
theorem loaderPlacesTheWords : Obligations.LoaderPlacesTheWords := by
  intro hi lo body input heven hfits
  rw [State.boot_mem (loadImage_of_fits heven hfits)]
  exact ⟨fun k hk => loadWords_read_inside [] (hi ++ lo) body (by omega) hk,
    fun a hout => loadWords_read_outside hfits hout⟩

/-! ### LOAD_ERROR -/

theorem loadImage_eq_none {bytes : List Byte} :
    loadImage bytes = none ↔ bytes.length < 2 ∨ bytes.length % 2 = 1 ∨
      65536 < (bytes.getD 0 0 ++ bytes.getD 1 0 : Word).toNat + (bytes.length / 2 - 1) := by
  match bytes with
  | [] | [_] => simp [loadImage]
  | hi :: lo :: body =>
    have hload : loadImage (hi :: lo :: body) = none ↔
        ¬ (body.length % 2 = 0 ∧ (hi ++ lo : Word).toNat + body.length / 2 ≤ 65536) :=
      ite_eq_right_iff.trans (by simp [wordOfBytes])
    rw [hload]
    simp only [List.getD_cons_zero, List.getD_cons_succ, List.length_cons]
    omega

/-- A boot is a LOAD_ERROR exactly if no memory is loaded; else the machine is RUNNING. -/
theorem State.boot_run_eq (image : Option (List Byte)) (input : Input) :
    (State.boot image input).run = if image.bind loadImage = none then .loadError else .running := by
  unfold State.boot
  cases image.bind loadImage <;> rfl

theorem State.boot_run_eq_loadError {image : Option (List Byte)} {input : Input} :
    (State.boot image input).run = .loadError ↔ image.bind loadImage = none := by
  rw [State.boot_run_eq]
  simp

/-- Settles O49: the loader's own conditions, on the whole image. -/
theorem loadErrorExactlyWhenMalformed : Obligations.LoadErrorExactlyWhenMalformed := by
  intro image input
  refine ⟨?_, fun hrun => step_terminal (by simp [hrun]), fun hrun => ?_⟩
  · rw [State.boot_run_eq_loadError]
    cases image with
    | none => simp
    | some bytes => simpa using loadImage_eq_none
  · rw [State.boot_run_eq, if_neg fun h => hrun (State.boot_run_eq_loadError.mpr h)]

end Sys2Proof.Machine
end

section
/-! PROOFS of the family other, the scans: PUTS and PUTSP word by word (R134, R136), how many reads decide whether a scan
ends (R173, log entry 5), and that PUTS completes exactly when its loop ends. -/

namespace Sys2Proof.Machine

/-! ### One word of a scan

Both services read a word, write codes that only the word decides, and go on or not by the word alone. -/

/-- One word of a scan: `codes` are what the word writes, `last` whether it ends the scan. -/
def scanWord (last : Word → Bool) (codes : Word → List Word) (a : Word) (s : State) : Bool × State :=
  (last (s.memRead a).1, (s.memRead a).2.outWriteAll (codes (s.memRead a).1))

/-- A zero word ends PUTS. -/
def putsLast (w : Word) : Bool := w == 0

/-- PUTS writes whole words (D13). -/
def putsCodes (w : Word) : List Word := if w = 0 then [] else [w]

theorem putsLast_eq_true {w : Word} : putsLast w = true ↔ w = 0 := beq_iff_eq

theorem putsLast_eq_false {w : Word} : putsLast w = false ↔ w ≠ 0 := beq_eq_false_iff_ne

theorem putsCodes_of_ne {w : Word} (h : w ≠ 0) : putsCodes w = [w] := if_neg h

theorem putsWord_eq (a : Word) (s : State) : putsWord a s = scanWord putsLast putsCodes a s := by
  simp only [putsWord, scanWord]
  split
  · next h => rw [h]; exact Prod.ext rfl (State.outWriteAll_nil _).symm
  · next h => rw [putsLast_eq_false.mpr h, putsCodes_of_ne h]; rfl

/-- A zero byte ends PUTSP. -/
def putspLast (w : Word) : Bool := lowByte w == 0 || highByte w == 0

/-- PUTSP writes the bytes of a word up to the first zero byte, low byte first. -/
def putspCodes (w : Word) : List Word :=
  if lowByte w = 0 then [] else if highByte w = 0 then [zext8 (lowByte w)] else [zext8 (lowByte w), zext8 (highByte w)]

theorem putspLast_eq_true {w : Word} : putspLast w = true ↔ lowByte w = 0 ∨ highByte w = 0 := by
  simp [putspLast]

theorem putspLast_eq_false {w : Word} : putspLast w = false ↔ lowByte w ≠ 0 ∧ highByte w ≠ 0 := by
  simp [putspLast]

theorem putspCodes_of_low_zero {w : Word} (h : lowByte w = 0) : putspCodes w = [] := if_pos h

theorem putspCodes_of_high_zero {w : Word} (hlow : lowByte w ≠ 0) (hhigh : highByte w = 0) :
    putspCodes w = [zext8 (lowByte w)] := by
  rw [putspCodes, if_neg hlow, if_pos hhigh]

theorem putspCodes_of_ne {w : Word} (hlow : lowByte w ≠ 0) (hhigh : highByte w ≠ 0) :
    putspCodes w = [zext8 (lowByte w), zext8 (highByte w)] := by
  rw [putspCodes, if_neg hlow, if_neg hhigh]

theorem putspWord_eq (a : Word) (s : State) : putspWord a s = scanWord putspLast putspCodes a s := by
  have hend : ∀ (w : Word) (u : State), lowByte w = 0 → (true, u) = (putspLast w, u.outWriteAll (putspCodes w)) :=
      fun w u h => by
    rw [putspLast_eq_true.mpr (.inl h), putspCodes_of_low_zero h, State.outWriteAll_nil]
  simp only [putspWord, scanWord]
  split
  · next h => exact hend _ _ (congrArg lowByte h)
  · split
    · next h => exact hend _ _ h
    · next hlow =>
      split
      · next hhigh => rw [putspLast_eq_true.mpr (.inr hhigh), putspCodes_of_high_zero hlow hhigh]; rfl
      · next hhigh =>
        rw [putspLast_eq_false.mpr ⟨hlow, hhigh⟩, putspCodes_of_ne hlow hhigh, State.outWriteAll_cons]; rfl

/-! ### Whether a scan ends within some number of reads -/

/-- The scan from `a` in `s` ends within `n` reads. -/
def ScanEnds (one : Word → State → Bool × State) (n : Nat) (a : Word) (s : State) : Prop :=
  ∃ t, scan one n a s = .next t

section Scans

variable {one : Word → State → Bool × State}

theorem ScanEnds.mono {n m : Nat} {a : Word} {s : State} (h : ScanEnds one n a s) (hm : n ≤ m) :
    ScanEnds one m a s := by
  obtain ⟨t, ht⟩ := h
  exact ⟨t, scan_mono ht hm⟩

theorem scanEnds_succ {n : Nat} {a : Word} {s : State} :
    ScanEnds one (n + 1) a s ↔ (one a s).1 = true ∨ ScanEnds one n (a + 1) (one a s).2 := by
  unfold ScanEnds
  rw [scan_succ]
  cases (one a s).1 with
  | true => simp
  | false => simp

/-- Scans of different lengths that end, end in the same state. -/
theorem scan_next_unique {n m : Nat} {a : Word} {s t u : State} (ht : scan one n a s = .next t)
    (hu : scan one m a s = .next u) : t = u := by
  have h := (scan_mono ht (n.le_max_left m)).symm.trans (scan_mono hu (n.le_max_right m))
  cases h; rfl

/-! ### Reads away from KBSR -/

variable {last : Word → Bool} {codes : Word → List Word} (hone : ∀ a s, one a s = scanWord last codes a s)
include hone

theorem one_of_ne {a : Word} (s : State) (h : a ≠ Config.kbsr) :
    one a s = (last (s.mem.read a), s.outWriteAll (codes (s.mem.read a))) := by
  rw [hone, scanWord, State.memRead_of_ne s h]

/-- Over words none of which is KBSR or the last, the scan writes their codes and goes on after them. -/
theorem scan_append_words {ws : List Word} {a : Word} {s : State} (n : Nat)
    (hws : ∀ (k : Nat) (h : k < ws.length), a + BitVec.ofNat 16 k ≠ Config.kbsr ∧
      s.mem.read (a + BitVec.ofNat 16 k) = ws[k] ∧ last ws[k] = false) :
    scan one (ws.length + n) a s =
      scan one n (a + BitVec.ofNat 16 ws.length) (s.outWriteAll (ws.flatMap codes)) := by
  induction ws generalizing a s with
  | nil => simp [State.outWriteAll_nil]
  | cons w ws ih =>
    obtain ⟨hne, hread, hlast⟩ := hws 0 (by simp)
    have hhead : one a s = (false, s.outWriteAll (codes w)) := by
      rw [BitVec.add_zero] at hne hread
      rw [one_of_ne hone s hne, hread, ← hlast]; rfl
    have htail := ih (a := a + 1) (s := s.outWriteAll (codes w)) fun k hk => by
      rw [← add_ofNat_succ]
      exact hws (k + 1) (by simpa using hk)
    rw [List.length_cons, Nat.add_right_comm, scan_succ, hhead, if_neg Bool.false_ne_true, htail, add_ofNat_succ]
    simp [State.outWriteAll, List.append_assoc]

/-- From any address the scan ends before KBSR, or it comes to KBSR having only written codes, over words none of which
is the last. -/
theorem scan_reaches_kbsr {d : Nat} {a : Word} (s : State) (hd : d < 65536)
    (ha : a + BitVec.ofNat 16 d = Config.kbsr) :
    ScanEnds one d a s ∨ (∀ k < d, last (s.mem.read (a + BitVec.ofNat 16 k)) = false) ∧
      ∃ cs, ∀ n, scan one (d + n) a s = scan one n Config.kbsr (s.outWriteAll cs) := by
  induction d generalizing a s with
  | zero =>
    obtain rfl : a = Config.kbsr := by simpa using ha
    exact .inr ⟨by simp, [], fun n => by rw [Nat.zero_add, State.outWriteAll_nil]⟩
  | succ d ih =>
    have hne : a ≠ Config.kbsr := by
      rintro rfl
      have hnat := congrArg BitVec.toNat ha
      simp only [Config.kbsr, BitVec.toNat_add, BitVec.toNat_ofNat] at hnat
      omega
    have hword := one_of_ne hone s hne
    cases hlast : last (s.mem.read a) with
    | true => exact .inl (scanEnds_succ.mpr (.inl (by rw [hword, hlast])))
    | false =>
      rcases ih (s.outWriteAll (codes (s.mem.read a))) (by omega) (by rw [← add_ofNat_succ, ha]) with
        hends | ⟨hrest, cs, hrun⟩
      · exact .inl (scanEnds_succ.mpr (.inr (by rw [hword]; exact hends)))
      · refine .inr ⟨fun k hk => ?_, codes (s.mem.read a) ++ cs, fun n => ?_⟩
        · cases k with
          | zero => rw [BitVec.add_zero]; exact hlast
          | succ k => rw [add_ofNat_succ]; exact hrest k (by omega)
        · rw [Nat.add_right_comm, scan_succ, hword, hlast, if_neg Bool.false_ne_true, hrun]
          simp [State.outWriteAll, List.append_assoc]

/-- A scan that comes to KBSR ends there if the rest of it does. -/
theorem scanEnds_of_kbsr {d n : Nat} {a : Word} {s : State} (hd : d < 65536) (ha : a + BitVec.ofNat 16 d = Config.kbsr)
    (h : ∀ cs, ScanEnds one n Config.kbsr (s.outWriteAll cs)) : ScanEnds one (d + n) a s := by
  rcases scan_reaches_kbsr hone s hd ha with hends | ⟨-, cs, hrun⟩
  · exact hends.mono (Nat.le_add_right d n)
  · obtain ⟨t, ht⟩ := h cs
    exact ⟨t, (hrun n).trans ht⟩

end Scans

/-- Any address is less than 65536 words on from any other. -/
theorem exists_distance (a b : Word) : ∃ d < 65536, a + BitVec.ofNat 16 d = b :=
  ⟨(b - a).toNat, (b - a).isLt, by rw [BitVec.ofNat_toNat, BitVec.setWidth_eq, add_sub_cancel]⟩

/-- From the address after KBSR on, every other address comes before KBSR again. -/
theorem exists_distance_from_kbsr {b : Word} (h : b ≠ Config.kbsr) :
    ∃ k < 65535, Config.kbsr + 1 + BitVec.ofNat 16 k = b := by
  obtain ⟨k, hk, hb⟩ := exists_distance (Config.kbsr + 1) b
  have hlast : k ≠ 65535 := by
    rintro rfl
    exact h (hb.symm.trans (by decide))
  exact ⟨k, by omega, hb⟩

/-! ### A scan at KBSR -/

/-- From `s` to `u` a poll took the pending character `c`, leaving `rest`, and codes may have been written. -/
structure PollHit (s u : State) (c : Byte) (rest : Input) : Prop where
  next : s.input.next = some (c, rest)
  kbdr : u.mem.read Config.kbdr = zext8 c
  words : ∀ a, a ≠ Config.kbsr → a ≠ Config.kbdr → u.mem.read a = s.mem.read a
  input : u.input = rest
  polls : u.polls = s.polls + 1

/-- PUTS at KBSR ends where the poll finds no character, and goes on where it finds one, for 0x8000 is no zero word. -/
theorem putsWord_kbsr_cases (s : State) :
    (∃ c rest u, Config.pollDraw s.polls = .ready ∧ PollHit s u c rest ∧ putsWord Config.kbsr s = (false, u)) ∨
      ((s.input.next = none ∨ Config.pollDraw s.polls = .notReady) ∧ (putsWord Config.kbsr s).1 = true) := by
  rw [putsWord_eq, scanWord, State.memRead_kbsr]
  rcases s.pollKeyboard_cases with ⟨c, rest, hnext, hdraw, e⟩ | ⟨hmiss, e⟩
  · obtain ⟨hkbsr, hkbdr⟩ := (s.countPoll.setInput rest).storeHit_words c
    refine .inl ⟨c, rest, s.pollKeyboard.outWriteAll (putsCodes 0x8000), hdraw, ⟨hnext, ?_, ?_, ?_, ?_⟩, ?_⟩
    · rw [e]; exact hkbdr
    · exact s.pollKeyboard_sameCore.words
    · rw [e]; rfl
    · exact s.pollKeyboard_polls
    · rw [e, hkbsr]; rfl
  · exact .inr ⟨hmiss, by rw [e]; exact putsLast_eq_true.mpr s.countPoll.storeMiss_words.1⟩

/-- PUTSP ends at KBSR, whatever the poll finds: both words it may store have a zero low byte. -/
theorem putspWord_kbsr (s : State) : (putspWord Config.kbsr s).1 = true := by
  rw [putspWord_eq, scanWord, State.memRead_kbsr]
  dsimp only
  rcases s.pollKeyboard_cases with ⟨c, rest, -, -, e⟩ | ⟨-, e⟩
  · rw [e, ((s.countPoll.setInput rest).storeHit_words c).1]; decide
  · rw [e, s.countPoll.storeMiss_words.1]; decide

/-- A PUTS scan that comes to KBDR while that holds a zero word ends there. -/
theorem puts_ends_at_zero_kbdr {u : State} (h : u.mem.read Config.kbdr = 0) :
    ScanEnds putsWord 2 (Config.kbsr + 1) u := by
  have hbetween := one_of_ne putsWord_eq u (show Config.kbsr + 1 ≠ Config.kbsr by decide)
  have hnext : Config.kbsr + 1 + 1 = Config.kbdr := by decide
  refine scanEnds_succ.mpr (.inr (scanEnds_succ.mpr (.inl ?_)))
  rw [hbetween, hnext, one_of_ne putsWord_eq _ (by decide)]
  exact putsLast_eq_true.mpr h

/-! ### How many polls a scan of PUTS may survive -/

/-- After at most `n` polls that a scan of PUTS survives, the input or a draw ends it. -/
def PollsLeft (n : Nat) (s : State) : Prop :=
  s.input.untilEnd = some n ∨ Config.untilYes Config.pollGaps s.polls = some n

/-- No poll to come ends a scan of PUTS. -/
structure PollsForever (s : State) : Prop where
  input : s.input.untilEnd = none
  draws : Config.untilYes Config.pollGaps s.polls = none

/-- `scanPolls` is such a number of polls, if there is one. -/
theorem State.pollsLeft_or_forever (s : State) : PollsLeft s.scanPolls s ∨ PollsForever s := by
  unfold PollsLeft State.scanPolls
  cases hinput : s.input.untilEnd with
  | some n => exact .inl (.inl rfl)
  | none =>
    cases hdraws : Config.untilYes Config.pollGaps s.polls with
    | some n => exact .inl (.inr rfl)
    | none => exact .inr ⟨hinput, hdraws⟩

/-- Taking a character: it has code 0, or it is one fewer to go. -/
theorem Input.untilEnd_next {i rest : Input} {c : Byte} {n : Nat} (h : i.next = some (c, rest))
    (hn : i.untilEnd = some n) : c = 0 ∨ ∃ m, n = m + 1 ∧ rest.untilEnd = some m := by
  cases i with
  | done => cases h
  | cons c' rest' =>
    cases h
    rw [Input.untilEnd] at hn
    split at hn
    · next hzero => exact .inl hzero
    · obtain ⟨m, hm, rfl⟩ := Option.map_eq_some_iff.mp hn
      exact .inr ⟨m, rfl, hm⟩
  | endless pos =>
    cases h
    rw [Input.untilEnd] at hn
    cases n with
    | zero => exact .inl (if_pos hn)
    | succ m => exact .inr ⟨m, rfl, Config.untilYes_succ hn⟩

/-- An input that ends no scan has a character to deliver, not of code 0, and then ends none either. -/
theorem Input.untilEnd_none {i : Input} (h : i.untilEnd = none) :
    ∃ c rest, i.next = some (c, rest) ∧ c ≠ 0 ∧ rest.untilEnd = none := by
  cases i with
  | done => cases h
  | cons c rest =>
    rw [Input.untilEnd] at h
    split at h
    · cases h
    · next hc => exact ⟨c, rest, rfl, hc, Option.map_eq_none_iff.mp h⟩
  | endless pos =>
    rw [Input.untilEnd] at h
    refine ⟨_, _, rfl, ?_, Config.untilYes_none h⟩
    rw [Config.endlessInput, h, if_neg (by simp)]
    split
    · decide
    · assumption

/-- A poll that a scan survives leaves one fewer. -/
theorem PollHit.pollsLeft {s u : State} {c : Byte} {rest : Input} {n : Nat} (hit : PollHit s u c rest)
    (hdraw : Config.pollDraw s.polls = .ready) (h : PollsLeft n s) : c = 0 ∨ ∃ m, n = m + 1 ∧ PollsLeft m u := by
  rcases h with hinput | hdraws
  · rcases Input.untilEnd_next hit.next hinput with hc | ⟨m, hm, hrest⟩
    · exact .inl hc
    · exact .inr ⟨m, hm, .inl (by rw [hit.input, hrest])⟩
  · cases n with
    | zero => simp [Config.pollDraw, hdraws] at hdraw
    | succ m => exact .inr ⟨m, rfl, .inr (by rw [hit.polls, Config.untilYes_succ hdraws])⟩

/-- A scan of PUTS ends if only so many polls can go by: each takes at most 65536 reads, and a character of code 0 two
more. -/
theorem puts_ends_of_pollsLeft {n : Nat} {a : Word} {s : State} (h : PollsLeft n s) :
    ScanEnds putsWord (65536 * (n + 2)) a s := by
  induction n using Nat.strong_induction_on generalizing a s with
  | _ n ih =>
    obtain ⟨d, hd, ha⟩ := exists_distance a Config.kbsr
    refine (scanEnds_of_kbsr (n := 65536 * (n + 1) + 1) putsWord_eq hd ha fun cs => ?_).mono (by omega)
    have h : PollsLeft n (s.outWriteAll cs) := h
    rcases putsWord_kbsr_cases (s.outWriteAll cs) with ⟨c, rest, u, hdraw, hit, e⟩ | ⟨-, hlast⟩
    · refine scanEnds_succ.mpr (.inr ?_)
      rw [e]
      rcases hit.pollsLeft hdraw h with rfl | ⟨m, rfl, hm⟩
      · exact (puts_ends_at_zero_kbdr hit.kbdr).mono (by omega)
      · exact (ih m (by omega) hm).mono (by omega)
    · exact scanEnds_succ.mpr (.inl hlast)

/-! ### A scan of PUTS that no poll ends -/

/-- Such a poll finds a character, not of code 0, and no later one ends the scan either. -/
theorem PollsForever.next {s : State} (h : PollsForever s) :
    ∃ c rest u, putsWord Config.kbsr s = (false, u) ∧ PollHit s u c rest ∧ c ≠ 0 ∧ PollsForever u := by
  obtain ⟨c, rest, hnext, hc, hrest⟩ := Input.untilEnd_none h.input
  rcases putsWord_kbsr_cases s with ⟨c', rest', u, -, hit, e⟩ | ⟨hnone | hdraw, -⟩
  · cases hnext.symm.trans hit.next
    exact ⟨c, rest, u, e, hit, hc, by rw [hit.input, hrest], by rw [hit.polls, Config.untilYes_none h.draws]⟩
  · simp [hnext] at hnone
  · simp [Config.pollDraw, h.draws] at hdraw

/-- No poll to come ends the scan, and no word but KBSR is zero. -/
structure NeverZero (s : State) : Prop where
  forever : PollsForever s
  words : ∀ a, a ≠ Config.kbsr → s.mem.read a ≠ 0

theorem zext8_ne_zero {c : Byte} (h : c ≠ 0) : zext8 c ≠ 0 := by
  revert c; decide

/-- No word ends the scan then, and it stays so. -/
theorem NeverZero.next {s : State} (h : NeverZero s) (a : Word) : ∃ u, putsWord a s = (false, u) ∧ NeverZero u := by
  by_cases ha : a = Config.kbsr
  · obtain ⟨c, rest, u, e, hit, hc, hforever⟩ := h.forever.next
    refine ⟨u, ha ▸ e, hforever, fun b hb => ?_⟩
    by_cases hbd : b = Config.kbdr
    · rw [hbd, hit.kbdr]; exact zext8_ne_zero hc
    · rw [hit.words b hb hbd]; exact h.words b hb
  · have hword := one_of_ne putsWord_eq s ha
    rw [putsLast_eq_false.mpr (h.words a ha)] at hword
    exact ⟨_, hword, ⟨h.forever.input, h.forever.draws⟩, h.words⟩

theorem NeverZero.not_scanEnds {s : State} (h : NeverZero s) (n : Nat) (a : Word) : ¬ ScanEnds putsWord n a s := by
  induction n generalizing a s with
  | zero => rintro ⟨t, ht⟩; cases ht
  | succ n ih =>
    obtain ⟨u, e, hu⟩ := h.next a
    rw [scanEnds_succ, e]
    simpa using ih hu (a + 1)

/-- A scan that no poll ends, ends in the reads up to KBSR or in one more round, or never: after that round every word has
been read and found not zero. -/
theorem puts_ends_of_pollsForever {n : Nat} {a : Word} {s : State} (h : PollsForever s)
    (hends : ScanEnds putsWord n a s) : ScanEnds putsWord (65536 * 2) a s := by
  obtain ⟨d, hd, ha⟩ := exists_distance a Config.kbsr
  rcases scan_reaches_kbsr putsWord_eq s hd ha with hsoon | ⟨-, cs, hrun⟩
  · exact hsoon.mono (by omega)
  have hforever : PollsForever (s.outWriteAll cs) := ⟨h.input, h.draws⟩
  obtain ⟨c, rest, u, e, -, -, hu⟩ := hforever.next
  have hpoll : ∀ m, ScanEnds putsWord (d + (m + 1)) a s ↔ ScanEnds putsWord m (Config.kbsr + 1) u := fun m => by
    rw [ScanEnds, hrun, ← ScanEnds, scanEnds_succ, e]
    simp
  rcases scan_reaches_kbsr putsWord_eq (d := 65535) (a := Config.kbsr + 1) u (by decide) (by decide) with
    hround | ⟨hwords, cs', hrun'⟩
  · exact ((hpoll 65535).mpr hround).mono (by omega)
  · have hnever : NeverZero (u.outWriteAll cs') := by
      refine ⟨⟨hu.input, hu.draws⟩, fun b hb => ?_⟩
      obtain ⟨k, hk, rfl⟩ := exists_distance_from_kbsr hb
      exact putsLast_eq_false.mp (hwords k hk)
    have hlater := (hpoll (65535 + n)).mp (hends.mono (by omega))
    rw [ScanEnds, hrun'] at hlater
    exact absurd hlater (hnever.not_scanEnds n Config.kbsr)

/-! ### How many reads decide a scan -/

/-- A scan of PUTS that ends at all ends within the reads the model allows it (log entry 5). -/
theorem puts_ends_within_bound {n : Nat} {a : Word} {s : State} (h : ScanEnds putsWord n a s) :
    ScanEnds putsWord s.scanBound a s := by
  rcases s.pollsLeft_or_forever with hleft | hforever
  · exact puts_ends_of_pollsLeft hleft
  · exact (puts_ends_of_pollsForever hforever h).mono (Nat.mul_le_mul_left 65536 (Nat.le_add_left 2 s.scanPolls))

/-- A scan of PUTSP always ends, at KBSR if not before. -/
theorem putsp_ends (a : Word) (s : State) : ScanEnds putspWord s.scanBound a s := by
  obtain ⟨d, hd, ha⟩ := exists_distance a Config.kbsr
  refine (scanEnds_of_kbsr (n := 1) putspWord_eq hd ha fun cs => ?_).mono (by unfold State.scanBound; omega)
  exact scanEnds_succ.mpr (.inl (putspWord_kbsr _))

section Decided

variable {one : Word → State → Bool × State}
  (hbound : ∀ {n : Nat} {a : Word} {s : State}, ScanEnds one n a s → ScanEnds one s.scanBound a s)
include hbound

/-- A scan that ends, ends in the same state within the reads the model allows it. -/
theorem scan_bound_of_next {n : Nat} {a : Word} {s t : State} (h : scan one n a s = .next t) :
    scan one s.scanBound a s = .next t := by
  obtain ⟨u, hu⟩ := hbound ⟨t, h⟩
  rw [hu, scan_next_unique hu h]

/-- More reads than the model allows a scan make no difference. -/
theorem scan_of_bound_le {n : Nat} {a : Word} {s : State} (hn : s.scanBound ≤ n) :
    scan one n a s = scan one s.scanBound a s := by
  rcases scan_cases (one := one) n a s with ⟨t, ht⟩ | hfault
  · rw [ht, scan_bound_of_next hbound ht]
  · rcases scan_cases (one := one) s.scanBound a s with ⟨t, ht⟩ | hfault'
    · exact (scan_mono ht hn).trans ht.symm
    · rw [hfault, hfault']

/-- A scan is its loop: the word at `a`, and the rest as a scan of its own unless that was the last. -/
theorem scan_bound_eq_loop (a : Word) (s : State) :
    scan one s.scanBound a s =
      if (one a s).1 then .next (one a s).2 else scan one (one a s).2.scanBound (a + 1) (one a s).2 := by
  rw [← scan_of_bound_le hbound (Nat.le_add_right s.scanBound ((one a s).2.scanBound + 1)), ← Nat.add_assoc,
    scan_succ, scan_of_bound_le hbound (Nat.le_add_left _ _)]

end Decided

/-! ### The scans do not look at R0 once they run -/

section SetReg

variable (s : State) (r : Reg) (v : Word)

theorem State.pollKeyboard_setReg : (s.setReg r v).pollKeyboard = s.pollKeyboard.setReg r v := by
  unfold State.pollKeyboard State.inPoll State.inPollDrawn
  simp only [State.setReg_input, State.setReg_polls]
  cases s.input.next with
  | none => rfl
  | some p => cases Config.pollDraw s.polls <;> rfl

theorem State.memRead_setReg (a : Word) : (s.setReg r v).memRead a = ((s.memRead a).1, (s.memRead a).2.setReg r v) := by
  by_cases h : a = Config.kbsr
  · simp [h, State.memRead_kbsr, State.pollKeyboard_setReg]
  · simp [State.memRead_of_ne _ h]

theorem scan_setReg {one : Word → State → Bool × State} {last : Word → Bool} {codes : Word → List Word}
    (hone : ∀ a s, one a s = scanWord last codes a s) (n : Nat) (a : Word) :
    scan one n a (s.setReg r v) = mapNext (·.setReg r v) (scan one n a s) := by
  induction n generalizing a s with
  | zero => rfl
  | succ n ih =>
    have hword : one a (s.setReg r v) = ((one a s).1, (one a s).2.setReg r v) := by
      simp only [hone, scanWord, State.memRead_setReg]; rfl
    simp only [scan_succ, hword]
    split
    · rfl
    · exact ih _ _

/-- Writing back what a register held undoes a write. -/
theorem State.setReg_restore : (s.setReg r v).setReg r (s.reg r) = s := by
  simp [State.setReg, State.reg]

/-- Going on from `a` as a service whose R0 is `a`, and restoring R0 at the end. -/
theorem scan_eq_mapNext {one : Word → State → Bool × State} {last : Word → Bool} {codes : Word → List Word}
    (hone : ∀ a s, one a s = scanWord last codes a s) (a : Word) :
    scan one s.scanBound a s =
      mapNext (fun t => t.setReg 0#3 (s.reg 0#3))
        (scan one (s.setReg 0#3 a).scanBound ((s.setReg 0#3 a).reg 0#3) (s.setReg 0#3 a)) := by
  rw [← scan_setReg _ _ _ hone, State.setReg_restore, State.setReg_reg_self]; rfl

end SetReg

/-! ### PUTS -/

theorem exec_puts (s : State) : exec .puts s = scan putsWord s.scanBound (s.reg 0#3) s := rfl

theorem exec_putsp (s : State) : exec .putsp s = scan putspWord s.scanBound (s.reg 0#3) s := rfl

theorem putsWord_of_zero {a : Word} {s : State} (h : (s.memRead a).1 = 0) : putsWord a s = (true, (s.memRead a).2) :=
  if_pos h

theorem putsWord_of_ne {a : Word} {s : State} (h : (s.memRead a).1 ≠ 0) :
    putsWord a s = (false, (s.memRead a).2.outWrite (s.memRead a).1) :=
  if_neg h

/-- The rule of the loop and the scan agree on where it ends. -/
theorem putsEnds_iff {a : Word} {s t : State} : PutsEnds a s t ↔ ∃ n, scan putsWord n a s = .next t := by
  constructor
  · intro h
    induction h with
    | zero hzero => exact ⟨1, by rw [scan_succ, putsWord_of_zero hzero]; rfl⟩
    | word hne _ ih =>
      obtain ⟨n, hn⟩ := ih
      exact ⟨n + 1, by rw [scan_succ, putsWord_of_ne hne]; exact hn⟩
  · rintro ⟨n, h⟩
    induction n generalizing a s with
    | zero => cases h
    | succ n ih =>
      by_cases hzero : (s.memRead a).1 = 0
      · rw [scan_succ, putsWord_of_zero hzero] at h
        cases h
        exact .zero hzero
      · rw [scan_succ, putsWord_of_ne hzero] at h
        exact .word hzero (ih h)

theorem exec_puts_next_iff {s t : State} : exec .puts s = .next t ↔ PutsEnds (s.reg 0#3) s t := by
  rw [putsEnds_iff, exec_puts]
  exact ⟨fun h => ⟨_, h⟩, fun ⟨_, h⟩ => scan_bound_of_next puts_ends_within_bound h⟩

/-- Settles O33: the loop ends exactly if some number of reads ends the scan, and then the allowed number does. -/
theorem putsCompletesExactlyWhenItsScanEnds : Obligations.PutsCompletesExactlyWhenItsScanEnds := by
  refine ⟨fun s t => exec_puts_next_iff, fun s => ?_⟩
  simp only [← exec_puts_next_iff]
  rcases scan_cases (one := putsWord) s.scanBound (s.reg 0#3) s with ⟨t, ht⟩ | hfault
  · have hexec : exec .puts s = .next t := ht
    simp [hexec]
  · have hexec : exec .puts s = .fault .unterminatedScan := hfault
    simp [hexec]

end Sys2Proof.Machine
end

section
/-! PROOFS of the family other, PUTS and PUTSP as services (R134, R136): their loops, the strings they write, that they end on
a finite input, and that a running machine with a finite input only ever waits (R163, R173). -/

namespace Sys2Proof.Machine

/-! ### Services that scan from R0 -/

section Services

variable {one : Word → State → Bool × State} {last : Word → Bool} {codes : Word → List Word}
  (hone : ∀ a s, one a s = scanWord last codes a s)
  (hbound : ∀ {n : Nat} {a : Word} {s : State}, ScanEnds one n a s → ScanEnds one s.scanBound a s)
include hone hbound

/-- At a last word the service completes, the codes of the word written. -/
theorem scan_stops {s s1 : State} {a w : Word} (hread : s.memRead a = (w, s1)) (hlast : last w = true) :
    scan one s.scanBound a s = .next (s1.outWriteAll (codes w)) := by
  rw [scan_bound_eq_loop hbound, hone, scanWord, hread, hlast]; rfl

/-- At any other word the service writes the codes of the word and goes on as itself from the next address. -/
theorem scan_continues {s s1 : State} {w : Word} (hread : s.memRead (s.reg 0#3) = (w, s1)) (hlast : last w = false) :
    scan one s.scanBound (s.reg 0#3) s =
      mapNext (fun t => t.setReg 0#3 (s.reg 0#3))
        (scan one ((s1.outWriteAll (codes w)).setReg 0#3 (s.reg 0#3 + 1)).scanBound
          (((s1.outWriteAll (codes w)).setReg 0#3 (s.reg 0#3 + 1)).reg 0#3)
          ((s1.outWriteAll (codes w)).setReg 0#3 (s.reg 0#3 + 1))) := by
  have hreg : (s1.outWriteAll (codes w)).reg 0#3 = s.reg 0#3 := by
    have hcore := s.memRead_sameCore (s.reg 0#3)
    rw [hread] at hcore
    exact hcore.reg 0#3
  rw [scan_bound_eq_loop hbound, hone, scanWord, hread, hlast, if_neg Bool.false_ne_true]
  rw [← hreg]
  exact scan_eq_mapNext _ hone _

/-- Over words none of which is KBSR or the last, the service writes their codes and ends as the scan of what follows. -/
theorem scan_of_words {ws : List Word} {a : Word} {s t : State} {n : Nat}
    (hws : ∀ (k : Nat) (h : k < ws.length), a + BitVec.ofNat 16 k ≠ Config.kbsr ∧
      s.mem.read (a + BitVec.ofNat 16 k) = ws[k] ∧ last ws[k] = false)
    (hend : scan one n (a + BitVec.ofNat 16 ws.length) (s.outWriteAll (ws.flatMap codes)) = .next t) :
    scan one s.scanBound a s = .next t :=
  scan_bound_of_next hbound ((scan_append_words hone n hws).trans hend)

end Services

/-! ### PUTS -/

/-- Settles O32: one round of the loop, then the scan that is left. -/
theorem putsObeysItsLoop : Obligations.PutsObeysItsLoop := by
  intro s
  split
  · next hzero =>
    rw [exec_puts, scan_bound_eq_loop puts_ends_within_bound, putsWord_of_zero hzero]; rfl
  · next hne =>
    have hloop := scan_continues putsWord_eq puts_ends_within_bound (Prod.mk.eta (p := s.memRead (s.reg 0#3))).symm
      (putsLast_eq_false.mpr hne)
    rw [putsCodes_of_ne hne] at hloop
    exact hloop

theorem flatMap_putsCodes {ws : List Word} (h : ∀ w ∈ ws, w ≠ 0) : ws.flatMap putsCodes = ws := by
  rw [List.flatMap_congr fun w hw => putsCodes_of_ne (h w hw)]
  simp

/-- PUTS writes a string of words none of which is zero or at KBSR, and ends as the scan of what follows it. -/
theorem exec_puts_of_words {s t : State} {ws : List Word} {n : Nat}
    (hws : ∀ (k : Nat) (h : k < ws.length), s.reg 0#3 + BitVec.ofNat 16 k ≠ Config.kbsr ∧
      s.mem.read (s.reg 0#3 + BitVec.ofNat 16 k) = ws[k] ∧ ws[k] ≠ 0)
    (hend : scan putsWord n (s.reg 0#3 + BitVec.ofNat 16 ws.length) (s.outWriteAll ws) = .next t) :
    exec .puts s = .next t := by
  have hcodes : ws.flatMap putsCodes = ws := flatMap_putsCodes fun w hw => by
    obtain ⟨k, hk, rfl⟩ := List.mem_iff_getElem.mp hw
    obtain ⟨-, -, hne⟩ := hws k hk
    exact hne
  refine scan_of_words putsWord_eq puts_ends_within_bound (n := n) (fun k hk => ?_) (by rw [hcodes]; exact hend)
  obtain ⟨hkbsr, hread, hne⟩ := hws k hk
  exact ⟨hkbsr, hread, putsLast_eq_false.mpr hne⟩

/-- Writing codes touches nothing but the output. -/
theorem State.outWriteAll_sameCore (s : State) (cs : List Word) : SameCore s (s.outWriteAll cs) :=
  ⟨rfl, rfl, rfl, rfl, rfl, rfl, fun _ _ _ => rfl, id⟩

/-- The read of KBSR with no character pending: zero, in the state after the poll that missed (R43). -/
theorem State.memRead_kbsr_of_none {s : State} (h : s.input.next = none) :
    s.memRead Config.kbsr = (0, s.countPoll.store Config.kbsr 0) := by
  rcases s.pollKeyboard_cases with ⟨c, rest, hnext, -⟩ | ⟨-, e⟩
  · cases h.symm.trans hnext
  · rw [State.memRead_kbsr, e, s.countPoll.storeMiss_words.1]

/-- A scan of PUTS ends with the read of a zero word. -/
theorem scan_putsWord_of_zero {a : Word} {s u : State} (h : s.memRead a = (0, u)) : scan putsWord 1 a s = .next u := by
  rw [scan_succ, putsWord_of_zero (by rw [h]), h]; rfl

/-- Settles O31: after the words, one more read ends the scan, at a zero word or, with no key pending, at KBSR. -/
theorem putsWritesUpToTheZeroWord : Obligations.PutsWritesUpToTheZeroWord := by
  refine ⟨fun s ws hws hkbsr hzero => ⟨_, exec_puts_of_words hws (scan_putsWord_of_zero ?_), s.outWriteAll_wrote ws⟩,
    fun s ws hws hkbsr hnone => ?_⟩
  · rw [State.memRead_of_ne _ hkbsr, ← hzero]; rfl
  · have hend : s.reg 0#3 + BitVec.ofNat 16 ws.length = Config.kbsr := hkbsr
    have hread := State.memRead_kbsr_of_none (s := s.outWriteAll ws) hnone
    have hcore := (s.outWriteAll ws).memRead_sameCore Config.kbsr
    rw [hread] at hcore
    obtain ⟨hzero, hkbdr⟩ := (s.outWriteAll ws).countPoll.storeMiss_words
    have hexec : exec .puts s = .next ((s.outWriteAll ws).countPoll.store Config.kbsr 0) :=
      exec_puts_of_words hws (by rw [hend]; exact scan_putsWord_of_zero hread)
    exact ⟨_, hexec, (s.outWriteAll_sameCore ws).trans hcore, rfl, rfl, hzero, hkbdr⟩

/-! ### PUTSP -/

/-- PUTSP is decided within the reads the model allows it, for it always ends there. -/
theorem putsp_ends_within_bound {n : Nat} {a : Word} {s : State} (_ : ScanEnds putspWord n a s) :
    ScanEnds putspWord s.scanBound a s := putsp_ends a s

/-- Settles O35: one word by its two bytes, then the scan that is left. -/
theorem putspObeysItsLoop : Obligations.PutspObeysItsLoop := by
  intro s s1 w hread
  have hstop := scan_stops putspWord_eq putsp_ends_within_bound hread
  split
  · next hlow =>
    have h := hstop (putspLast_eq_true.mpr (.inl hlow))
    rw [putspCodes_of_low_zero hlow, State.outWriteAll_nil] at h
    exact h
  · next hlow =>
    split
    · next hhigh =>
      have h := hstop (putspLast_eq_true.mpr (.inr hhigh))
      rw [putspCodes_of_high_zero hlow hhigh] at h
      exact h
    · next hhigh =>
      have h := scan_continues putspWord_eq putsp_ends_within_bound hread (putspLast_eq_false.mpr ⟨hlow, hhigh⟩)
      rw [putspCodes_of_ne hlow hhigh] at h
      exact h

/-- What PUTSP writes of the word that ends it. -/
theorem putspCodes_of_last {w : Word} (h : lowByte w = 0 ∨ highByte w = 0) :
    putspCodes w = if lowByte w = 0 then [] else [zext8 (lowByte w)] := by
  split
  · next hlow => exact putspCodes_of_low_zero hlow
  · next hlow => exact putspCodes_of_high_zero hlow (h.resolve_left hlow)

theorem State.outWriteAll_append (s : State) (cs ds : List Word) :
    (s.outWriteAll cs).outWriteAll ds = s.outWriteAll (cs ++ ds) := by
  simp [State.outWriteAll, List.append_assoc]

/-- Settles O34: the words up to the last write both bytes, and the last word what stands before its zero byte. -/
theorem putspWritesPackedBytes : Obligations.PutspWritesPackedBytes := by
  intro s ws w hws hkbsr hread hlast
  have hcodes : ws.flatMap putspCodes = ws.flatMap fun w => [zext8 (lowByte w), zext8 (highByte w)] :=
    List.flatMap_congr fun w hw => by
      obtain ⟨k, hk, rfl⟩ := List.mem_iff_getElem.mp hw
      obtain ⟨-, -, hlow, hhigh⟩ := hws k hk
      exact putspCodes_of_ne hlow hhigh
  have hexec : exec .putsp s = .next ((s.outWriteAll (ws.flatMap putspCodes)).outWriteAll (putspCodes w)) := by
    refine scan_of_words putspWord_eq putsp_ends_within_bound (ws := ws) (n := 1) (fun k hk => ?_) ?_
    · obtain ⟨hne, hword, hlow, hhigh⟩ := hws k hk
      exact ⟨hne, hword, putspLast_eq_false.mpr ⟨hlow, hhigh⟩⟩
    · have hword := one_of_ne putspWord_eq (s.outWriteAll (ws.flatMap putspCodes)) hkbsr
      have hmem : (s.outWriteAll (ws.flatMap putspCodes)).mem.read (s.reg 0#3 + BitVec.ofNat 16 ws.length) = w := hread
      rw [hmem, putspLast_eq_true.mpr hlast] at hword
      rw [scan_succ, hword]; rfl
  rw [State.outWriteAll_append, hcodes, putspCodes_of_last hlast] at hexec
  exact ⟨_, hexec, s.outWriteAll_wrote _⟩

/-! ### Finite input -/

theorem Input.untilEnd_of_isFinite {i : Input} (h : i.isFinite = true) : ∃ n, i.untilEnd = some n := by
  induction i with
  | done => exact ⟨0, rfl⟩
  | cons c rest ih =>
    obtain ⟨n, hn⟩ := ih h
    rw [Input.untilEnd, hn]
    split
    · exact ⟨0, rfl⟩
    · exact ⟨n + 1, rfl⟩
  | endless pos => cases h

theorem exec_puts_of_finite {s : State} (h : s.input.isFinite = true) : ∃ t, exec .puts s = .next t := by
  obtain ⟨n, hn⟩ := Input.untilEnd_of_isFinite h
  exact puts_ends_within_bound (puts_ends_of_pollsLeft (n := n) (.inl hn))

theorem exec_putsp_completes (s : State) : ∃ t, exec .putsp s = .next t := putsp_ends (s.reg 0#3) s

/-- Settles O36: a finite input leaves only so many polls that find a character, and PUTSP needs but one. -/
theorem scansEndOnFiniteInput : Obligations.ScansEndOnFiniteInput := by
  refine ⟨fun s h => ?_, fun s => ?_⟩
  · obtain ⟨t, ht⟩ := exec_puts_of_finite h
    exact ⟨t, ht, (scan_next putsWord_scanned ht).core⟩
  · obtain ⟨t, ht⟩ := exec_putsp_completes s
    exact ⟨t, ht, (scan_next putspWord_scanned ht).core⟩

/-! ### A running machine only ever waits -/

theorem Input.next_isFinite {i rest : Input} {c : Byte} (h : i.next = some (c, rest)) (hi : i.isFinite = true) :
    rest.isFinite = true := by
  cases i with
  | done => cases h
  | cons c' rest' => cases h; exact hi
  | endless pos => cases hi

/-- What is left of a finite input is finite. -/
theorem Input.drop_isFinite {i : Input} (h : i.isFinite = true) (k : Nat) : (i.drop k).isFinite = true := by
  induction k generalizing i with
  | zero => exact h
  | succ k ih =>
    rw [Input.drop]
    split
    · next hnext => exact ih (Input.next_isFinite hnext h)
    · exact h

theorem step_input_isFinite {s t : State} (h : step s = .next t) (hs : s.input.isFinite = true) :
    t.input.isFinite = true := by
  obtain ⟨-, k, hk⟩ := outputGrowsAndInputIsConsumed s t h
  rw [hk]
  exact Input.drop_isFinite hs k

/-- The blocking read completes or has no character to take. -/
theorem State.readChar_completes (s : State) : (∃ t, s.readChar = .next t) ∨ s.input.next = none := by
  rcases s.readChar_cases with ⟨c, rest, -, e⟩ | ⟨hnone, -⟩
  · exact .inl ⟨_, e⟩
  · exact .inr hnone

/-- On a finite input every instruction completes, but a GETC, in either spelling, with no character pending. -/
theorem exec_completes (i : Instr) {s : State} (hs : s.input.isFinite = true) :
    (∃ t, exec i s = .next t) ∨ ((i = .getc ∨ i = .trap 0x20) ∧ s.input.next = none) := by
  cases i with
  | getc => exact s.readChar_completes.imp_right fun h => ⟨.inl rfl, h⟩
  | puts => exact .inl (exec_puts_of_finite hs)
  | putsp => exact .inl (exec_putsp_completes s)
  | trap v =>
    rcases vector_cases v with rfl | rfl | rfl | rfl | rfl | rfl | hv
    · exact s.readChar_completes.imp_right fun h => ⟨.inr rfl, h⟩
    · exact .inl ⟨_, rfl⟩
    · exact .inl (exec_puts_of_finite hs)
    · exact .inl ⟨_, rfl⟩
    · exact .inl (exec_putsp_completes s)
    · exact .inl ⟨_, rfl⟩
    · exact .inl ⟨s, trapDispatch_other s hv⟩
  | _ => exact .inl ⟨_, rfl⟩

/-- Settles O45: phase 2 of IN waits or reads; at a boundary only GETC can wait, for the decoder spells TRAP x20 as GETC;
and a step takes its characters from the front. -/
theorem runningStepOnlyEverWaits : Obligations.RunningStepOnlyEverWaits := by
  intro s hrun hfinite
  split
  · next hphase =>
    cases hnext : s.input.next with
    | none => exact .inl ⟨rfl, step_inPhase_of_none hrun hphase hnext⟩
    | some p =>
      obtain ⟨t, hstep, -⟩ := step_inPhase_of_pending hrun hphase hnext
      exact .inr ⟨by simp, t, hstep, step_input_isFinite hstep hfinite⟩
  · next hphase =>
    have hstep := step_boundary hrun (Bool.eq_false_iff.mpr hphase)
    have hfetched : s.fetch.input.isFinite = true := by
      obtain ⟨k, hk⟩ := s.fetch_flowed.input
      rw [hk]
      exact Input.drop_isFinite hfinite k
    by_cases hwait : decodeWord (s.memRead s.pc).1 = .getc ∧ (s.memRead s.pc).2.input.next = none
    · obtain ⟨hgetc, hnone⟩ := hwait
      refine .inl ⟨hgetc, hnone, ?_⟩
      rw [hstep, State.fetch_ir, hgetc]
      exact State.readChar_of_none (s := s.fetch) hnone
    · refine .inr ⟨hwait, ?_⟩
      rcases exec_completes (decodeWord s.fetch.ir) hfetched with ⟨t, ht⟩ | ⟨hgetc | htrap, hnone⟩
      · exact ⟨t, hstep.trans ht, step_input_isFinite (hstep.trans ht) hfinite⟩
      · exact absurd ⟨hgetc, hnone⟩ hwait
      · exact absurd htrap (decodeWord_ne_trap rfl _)

end Sys2Proof.Machine
end
